-- ==== Sys2Proof/Word.lean ====
section
/-! DEFINITION. The words of the machine, with the widths of rule R8 (spec/00_scope.md). -/

namespace Sys2Proof

/-- A register, a memory cell, an opcode, an operand byte, an immediate, a value sent to the output: 8 bits,
unsigned (R8, R21, R51). -/
abbrev Byte := BitVec 8

/-- The program counter: 9 bits (R8, R26).  Runs hold it in 0 to 256; see `Sys2Proof.Safety.StateInv`. -/
abbrev PC := BitVec 9

/-- The index of a general register, 0 to 7 (R21). -/
abbrev RegIdx := Fin 8

/-- The index of a flag in the flag sequence, 0 to 7 (R28). -/
abbrev FlagIdx := Fin 8

end Sys2Proof
end

