-- ==== Sys2Proof/Syntax.lean ====
section
/-! DEFINITION. The instructions: one constructor for each of the 13 rows of spec/opcode_table.json (R83). -/

namespace Sys2Proof

/-- An instruction with the operand bytes its format has (R81), in the order of the bytes.  A register operand is
the whole operand byte (R85): 0 to 7 is legal, and a byte of 8 or more makes an instruction that `WellFormed`
rejects and that faults when it is executed (R114). -/
inductive Instr where
  /-- LOAD-IMMEDIATE, format RI (R140): `opA` register, `opB` immediate. -/
  | ldi (opA opB : Byte)
  /-- PRINT-REGISTER, format R (R141). -/
  | prn (opA : Byte)
  /-- ADD, format RR (R151). -/
  | add (opA opB : Byte)
  /-- MULTIPLY, format RR (R152). -/
  | mul (opA opB : Byte)
  /-- COMPARE, format RR (R153). -/
  | cmp (opA opB : Byte)
  /-- HALT, format N (R142). -/
  | hlt
  /-- PUSH, format R (R161). -/
  | push (opA : Byte)
  /-- POP, format R (R162). -/
  | pop (opA : Byte)
  /-- CALL, format R (R174). -/
  | call (opA : Byte)
  /-- RETURN, format N (R175). -/
  | ret
  /-- JUMP-IF-EQUAL, format R (R172). -/
  | jeq (opA : Byte)
  /-- JUMP-IF-NOT-EQUAL, format R (R173). -/
  | jne (opA : Byte)
  /-- JUMP, format R (R171). -/
  | jmp (opA : Byte)
  deriving DecidableEq, Repr

end Sys2Proof
end

