-- ==== Sys2Proof/WellFormed.lean ====
section
/-! DEFINITION. Which instructions are well formed: every register operand is a register index (R85, R90). -/

namespace Sys2Proof

/-- The operand bytes that the instruction's format names as register indices, `opA` before `opB` (R85, R114).
The second operand of LOAD-IMMEDIATE is an immediate and is not among them. -/
def Instr.regOperands : Instr → List Byte
  | .ldi a _ => [a]
  | .prn a => [a]
  | .add a b => [a, b]
  | .mul a b => [a, b]
  | .cmp a b => [a, b]
  | .hlt => []
  | .push a => [a]
  | .pop a => [a]
  | .call a => [a]
  | .ret => []
  | .jeq a => [a]
  | .jne a => [a]
  | .jmp a => [a]

/-- "In a legal opcode's operand bytes the only illegal values are register indices 8 to 255" (R90). -/
abbrev WellFormed (i : Instr) : Prop := ∀ b ∈ i.regOperands, b.toNat < 8

end Sys2Proof
end

