-- ==== Sys2Proof/Decode.lean ====
section
/-! DEFINITION. Decoding and encoding (spec/30_encoding.md).  `decodeFrom` is the lookup and the width-directed
operand reads of rule R112 over any way of reading the instruction's bytes; the machine's fetch and the decoder
of a list of bytes are both that one function. -/

namespace Sys2Proof

/-- Why a list of bytes is not an instruction. -/
inductive Reject where
  /-- The instruction needs its byte number `n` (0 is the opcode) and the list has no such byte. -/
  | missingByte (n : Nat)
  /-- The opcode is none of the 13 (R89). -/
  | unknownOpcode (op : Byte)
  deriving DecidableEq, Repr

/-- Format R (R81): one register operand, byte 1. -/
def readR {ε : Type} (read : Nat → Except ε Byte) (mk : Byte → Instr) : Except ε Instr := do
  let opA ← read 1
  return mk opA

/-- Formats RR and RI (R81): two operand bytes, byte 1 and then byte 2. -/
def readAB {ε : Type} (read : Nat → Except ε Byte) (mk : Byte → Byte → Instr) : Except ε Instr := do
  let opA ← read 1
  let opB ← read 2
  return mk opA opB

/-- The fetch algorithm of R112 with the opcode table of R83 in the middle: read the opcode, look it up on all
eight bits (R82), then read only the operand bytes its width calls for, in order. -/
def decodeFrom {ε : Type} (read : Nat → Except ε Byte) (unknown : Byte → ε) : Except ε Instr := do
  let op ← read 0
  match op.toNat with
  | 0x82 => readAB read .ldi
  | 0x47 => readR read .prn
  | 0xA0 => readAB read .add
  | 0xA2 => readAB read .mul
  | 0xA7 => readAB read .cmp
  | 0x01 => return .hlt
  | 0x45 => readR read .push
  | 0x46 => readR read .pop
  | 0x50 => readR read .call
  | 0x11 => return .ret
  | 0x55 => readR read .jeq
  | 0x56 => readR read .jne
  | 0x54 => readR read .jmp
  | _ => throw (unknown op)

/-- Byte number `n` of a list of bytes. -/
def byteOf (bs : List Byte) (n : Nat) : Except Reject Byte :=
  match bs[n]? with
  | some b => .ok b
  | none => .error (.missingByte n)

/-- The width function of R84, in bytes. -/
def Instr.width : Instr → Nat
  | .hlt | .ret => 1
  | .prn _ | .push _ | .pop _ | .call _ | .jeq _ | .jne _ | .jmp _ => 2
  | .ldi _ _ | .add _ _ | .mul _ _ | .cmp _ _ => 3

/-- Decode the instruction at the head of a list of bytes, and give back the bytes after it. -/
def decode (bs : List Byte) : Except Reject (Instr × List Byte) :=
  match decodeFrom (byteOf bs) .unknownOpcode with
  | .ok i => .ok (i, bs.drop i.width)
  | .error r => .error r

/-- The opcode byte of each instruction: the hexadecimal column of R83's table. -/
def Instr.opcode : Instr → Byte
  | .ldi _ _ => 0x82
  | .prn _ => 0x47
  | .add _ _ => 0xA0
  | .mul _ _ => 0xA2
  | .cmp _ _ => 0xA7
  | .hlt => 0x01
  | .push _ => 0x45
  | .pop _ => 0x46
  | .call _ => 0x50
  | .ret => 0x11
  | .jeq _ => 0x55
  | .jne _ => 0x56
  | .jmp _ => 0x54

/-- The operand bytes in the order they lie in memory (R55, R81). -/
def Instr.operandBytes : Instr → List Byte
  | .ldi a b => [a, b]
  | .prn a => [a]
  | .add a b => [a, b]
  | .mul a b => [a, b]
  | .cmp a b => [a, b]
  | .hlt => []
  | .push a => [a]
  | .pop a => [a]
  | .call a => [a]
  | .ret => []
  | .jeq a => [a]
  | .jne a => [a]
  | .jmp a => [a]

/-- The bytes of an instruction, opcode first, at ascending addresses (R55, R81). -/
def encode (i : Instr) : List Byte := i.opcode :: i.operandBytes

/-- The longest instruction, in bytes (R80). -/
def maxWidth : Nat := 3

/-- The `maxWidth` bytes of an instruction written as the number `w` of `nbits` bits: byte `k` is bits `8k+7..8k`,
and every bit from `nbits` on is 0. -/
def tableBytes (nbits w : Nat) : List Byte :=
  (List.range maxWidth).map fun k => BitVec.ofNat 8 (w % 2 ^ nbits / 2 ^ (8 * k))

/-- The instruction the decoder reads from the bytes of a table word. -/
def decodeTableWord (nbits w : Nat) : Option Instr :=
  match decode (tableBytes nbits w) with
  | .ok (i, _) => some i
  | .error _ => none

end Sys2Proof
end

