-- ==== Sys2Proof/Config.lean ====
section
/-! DEFINITION. What this implementation fixes: the parameters of rule R5 (spec/00_scope.md).  The spec leaves
no value open (spec/93_implementation_defined.md: "every value is determined"), so there is no free value here. -/

namespace Sys2Proof.Config

/-- `MEM_SIZE` (R5, R51): the number of bytes of memory. -/
def memSize : Nat := 256

/-- `SP_INDEX` (R5, R22): the register used as stack pointer. -/
def spIndex : RegIdx := 7

/-- `E_INDEX` (R5, R28): the place of the Equal flag in the flag sequence. -/
def equalIndex : FlagIdx := 7

/-- `PC_RESET` (R5, R36). -/
def pcReset : PC := 0

/-- `SP_RESET` (R5, R36): the spec's value for register 7 after reset (decision D1, conflict C1; log entry 10). -/
def spReset : Byte := 0

/-- `LOAD_BASE` (R5, R58): the address the program image is loaded at. -/
def loadBase : Nat := 0

/-- What an address that memory does not list reads as: the reset content of every cell, 0x00 (R36, R57). -/
def unlistedByte : Byte := 0

end Sys2Proof.Config
end

