-- ==== Sys2Proof/Machine/State.lean ====
section
/-! DEFINITION. The state of the machine: the seven elements of rule R20 (spec/10_state.md) "and nothing else",
the reasons a step can stop, and the state after reset (R36, R220). -/

namespace Sys2Proof.Machine

/-- The run state of the execution controller (R31). -/
inductive RunState where
  | running
  | halted
  | faulted
  deriving DecidableEq, Repr

/-- The fault causes of R191 other than `None`, with the information each records. -/
inductive FaultCause where
  /-- `UnrecognizedOpcode(op, at)`: the opcode byte and the value of `pc` it was fetched from (R192). -/
  | unrecognizedOpcode (op : Byte) (pc : PC)
  /-- `IndexOutOfBounds(Register, i)`: the offending operand byte (R195). -/
  | registerOutOfBounds (i : Byte)
  /-- `IndexOutOfBounds(Memory, a)`: the offending address, a natural number (R193, R196). -/
  | memoryOutOfBounds (a : Nat)
  deriving DecidableEq, Repr

/-- Memory as the list of its non-zero bytes by address; `Memory.wf` (Machine/Memory.lean) is its one canonical
form, and an address not listed reads as `Config.unlistedByte`. -/
abbrev Memory := List Host.Cell

/-- Why the machine takes no step.  A fault that an instruction raises is NOT one of these: it is taken, as a next
state with `run = faulted` (R198).  These are the two terminal states, from which "no step is defined" (R123). -/
inductive Fault where
  /-- Raised by `step` alone, in a state whose run state is Halted: the clean end of a run (R123, R202).  Safe: the
  hardware does not go on either (log entry 1). -/
  | alreadyHalted
  /-- Raised by `step` alone, in a state whose run state is Faulted, with the cause that state records (R123, R200).
  Safe: the hardware does not go on either (log entry 1). -/
  | alreadyFaulted (cause : Option FaultCause)
  deriving DecidableEq, Repr

/-- Why the model gives no meaning. -/
inductive Refusal where
  /-- Raised by an arm of `exec` whose instruction has no meaning yet.  No arm does: all 13 instructions are
  modelled.  Safe: nothing is claimed of a refused instruction. -/
  | notModelled (mnemonic : String)
  deriving DecidableEq, Repr

/-- The complete architectural state (R20). -/
structure State where
  /-- `x[0]` to `x[7]`; register 7 is the stack pointer (R21, R22). -/
  regs : Vector Byte 8
  /-- `FL[0]` to `FL[7]`; flag 7 is Equal (R28). -/
  flags : Vector Bool 8
  /-- The program counter (R25, R26). -/
  pc : PC
  /-- `mem[0]` to `mem[255]` (R35, R51). -/
  mem : Memory
  /-- The run state (R31). -/
  run : RunState
  /-- The fault cause; `none` is the spec's own `None` (R32). -/
  faultCause : Option FaultCause
  /-- The output sequence, oldest value first (R33). -/
  out : List Byte
  deriving DecidableEq, Repr

/-- The state after reset, every element as R36 gives it. -/
def State.reset : State where
  regs := #v[0, 0, 0, 0, 0, 0, 0, Config.spReset]
  flags := #v[false, false, false, false, false, false, false, false]
  pc := Config.pcReset
  mem := []
  run := .running
  faultCause := none
  out := []

end Sys2Proof.Machine
end

