-- ==== Sys2Proof/Machine/Memory.lean ====
section
/-! DEFINITION. Memory as data: reading one byte, writing one byte, and the canonical form (spec/20_memory.md). -/

namespace Sys2Proof.Machine

/-- The content of the cell at address `a`: the listed byte, or the reset content (R57). -/
def Memory.read : Memory → Nat → Byte
  | [], _ => Config.unlistedByte
  | c :: m, a => if c.1 = a then c.2 else Memory.read m a

/-- Memory with no entry for address `a`. -/
def Memory.erase (a : Nat) : Memory → Memory
  | [] => []
  | c :: m => if c.1 = a then Memory.erase a m else c :: Memory.erase a m

/-- Memory with the entry `(a, v)` put before the first higher address. -/
def Memory.insert (a : Nat) (v : Byte) : Memory → Memory
  | [] => [(a, v)]
  | c :: m => if a < c.1 then (a, v) :: c :: m else c :: Memory.insert a v m

/-- Memory after storing `v` at `a` and nothing else (R57).  Storing the byte that an unlisted address reads as
removes the entry. -/
def Memory.write (a : Nat) (v : Byte) (m : Memory) : Memory :=
  if v = Config.unlistedByte then Memory.erase a m else Memory.insert a v (Memory.erase a m)

/-- The canonical form: addresses strictly rising, all below `MEM_SIZE` (R51), and no entry equal to what an
unlisted address reads as.  Two memories in this form that read alike are the same list. -/
abbrev Memory.wf (m : Memory) : Prop :=
  m.Pairwise (fun c d => c.1 < d.1) ∧ ∀ c ∈ m, c.1 < Config.memSize ∧ c.2 ≠ Config.unlistedByte

end Sys2Proof.Machine
end

