-- ==== Sys2Proof/Machine/Ops.lean ====
section
/-! DEFINITION. The named operations over the state: registers (R119), the program counter (R117), the two memory
primitives (R52), the output (R33), the stack (R160), taking a fault (R198), and the fetch (R112). -/

namespace Sys2Proof.Machine

/-! ### Registers (register_file_8x8bit, R119) -/

/-- `x[i]`. -/
def readReg (s : State) (i : RegIdx) : Byte := s.regs[i.val]

/-- `x[i] <- v`: all eight bits (R119).  No register is hardwired (R24). -/
def writeReg (i : RegIdx) (v : Byte) (s : State) : State := { s with regs := s.regs.set i.val v }

/-- `SP`, another name for `x[7]` (R7, R22). -/
def sp (s : State) : Byte := readReg s Config.spIndex

/-- `SP <- v`. -/
def writeSp (v : Byte) (s : State) : State := writeReg Config.spIndex v s

/-! ### Program counter (program_counter, R117) -/

/-- `pc <- pc + w`, a 9-bit addition (R26). -/
def advance (w : Nat) (s : State) : State := { s with pc := s.pc + BitVec.ofNat 9 w }

/-- `pc <- zext_9(v)`: the load from a register or from a popped byte (R26, R170). -/
def loadPc (v : Byte) (s : State) : State := { s with pc := v.setWidth 9 }

/-! ### Memory (R52) -/

/-- `MemRead(addr, 1)`. -/
def memRead (s : State) (a : Nat) : Except FaultCause Byte :=
  if a < Config.memSize then .ok (Memory.read s.mem a) else .error (.memoryOutOfBounds a)

/-- `MemWrite(addr, 1, v)`. -/
def memWrite (a : Nat) (v : Byte) (s : State) : Except FaultCause State :=
  if a < Config.memSize then .ok { s with mem := Memory.write a v s.mem } else .error (.memoryOutOfBounds a)

/-! ### Output (R33) -/

/-- `Emit(v)`: always succeeds (R141). -/
def emit (v : Byte) (s : State) : State := { s with out := s.out ++ [v] }

/-! ### Run state (execution_controller, R115) -/

/-- `run <- Halted` (R142). -/
def halt (s : State) : State := { s with run := .halted }

/-- Taking a fault (R198): the run state and the fault cause are written; the registers, the flags, the program
counter, memory and the output keep the values they had at the start of the step.  Control goes nowhere, and there
is no return from a fault (R201). -/
def takeFault (c : FaultCause) (s : State) : State := { s with run := .faulted, faultCause := some c }

/-- The end of a step that began in `s` (R116): the effect if nothing raised, otherwise the fault taken in `s`. -/
def commit (s : State) (r : Except FaultCause State) : Host.Outcome State Fault Refusal :=
  match r with
  | .ok t => .next t
  | .error c => .next (takeFault c s)

/-! ### The stack (R160) -/

/-- The address the next push stores at: `(SP - 1) mod 256` (R160, R163). -/
def pushAddr (s : State) : Nat := (sp s - 1).toNat

/-- The decrement of SP modulo 256 (R161, R163). -/
def decSp (s : State) : State := writeSp (sp s - 1) s

/-- Decrement SP, then store at the new SP the byte that `value` gives in the state AFTER the decrement (R161,
R165). -/
def pushByte (value : State → Byte) (s : State) : Except FaultCause State :=
  memWrite (pushAddr s) (value (decSp s)) (decSp s)

/-- Read the byte at SP (R162, R175); the increment of SP comes later and is `incSp`. -/
def topOfStack (s : State) : Except FaultCause Byte := memRead s (sp s).toNat

/-- `SP <- (SP + 1) mod 256` (R162, R163). -/
def incSp (s : State) : State := writeSp (sp s + 1) s

/-! ### Fetch (instruction_fetch_unit, R111, R112) -/

/-- `Fetch(pc)`: the opcode, then the operand bytes its width calls for, each through `MemRead`. -/
def fetch (s : State) : Except FaultCause Instr :=
  decodeFrom (fun n => memRead s (s.pc.toNat + n)) (fun op => .unrecognizedOpcode op s.pc)

end Sys2Proof.Machine
end

