-- ==== Sys2Proof/Machine/Flags.lean ====
section
/-! DEFINITION. The flags and the branch decision (conditional_branch_logic, R28 to R30, R118). -/

namespace Sys2Proof.Machine

/-- `FL[k]`. -/
def readFlag (s : State) (k : FlagIdx) : Bool := s.flags[k.val]

/-- `E`, another name for `FL[7]` (R28). -/
def equalFlag (s : State) : Bool := readFlag s Config.equalIndex

/-- `E <- b`; no other flag changes (R7). -/
def writeEqual (b : Bool) (s : State) : State := { s with flags := s.flags.set Config.equalIndex.val b }

/-- The bit `taken` of R118, from the decoded instruction and `E`. -/
def taken (i : Instr) (e : Bool) : Bool :=
  match i with
  | .jmp _ => true
  | .call _ => true
  | .jeq _ => e
  | .jne _ => !e
  | .ldi _ _ => false
  | .prn _ => false
  | .add _ _ => false
  | .mul _ _ => false
  | .cmp _ _ => false
  | .hlt => false
  | .push _ => false
  | .pop _ => false
  | .ret => false

/-- The program counter's choice for an instruction with a target register (R118): load the target when `taken`,
otherwise advance by 2. -/
def branch (i : Instr) (target : RegIdx) (s : State) : State :=
  if taken i (equalFlag s) then loadPc (readReg s target) s else advance 2 s

end Sys2Proof.Machine
end

