-- ==== Sys2Proof/Machine/Operands.lean ====
section
/-! DEFINITION. The operand forms.  There are two: a register operand, a whole byte checked to be a register index
(R85, R114), and the immediate of LOAD-IMMEDIATE, a byte taken as it stands (R86), which needs no operation. -/

namespace Sys2Proof.Machine

/-- The register check of R114 for one operand byte: not masked, not wrapped (R85, R195). -/
def checkReg (b : Byte) : Except FaultCause RegIdx :=
  if h : b.toNat < 8 then .ok ⟨b.toNat, h⟩ else .error (.registerOutOfBounds b)

/-- Format R: check `opA`, then perform the instruction's effect (R114, R125). -/
def withReg (opA : Byte) (s : State) (effect : RegIdx → Except FaultCause State) :
    Host.Outcome State Fault Refusal :=
  commit s (do
    let a ← checkReg opA
    effect a)

/-- Format RR: check `opA`, then `opB`, then perform the instruction's effect (R114, R125). -/
def withRegs (opA opB : Byte) (s : State) (effect : RegIdx → RegIdx → Except FaultCause State) :
    Host.Outcome State Fault Refusal :=
  commit s (do
    let a ← checkReg opA
    let b ← checkReg opB
    effect a b)

end Sys2Proof.Machine
end

