-- ==== Sys2Proof/Machine/Alu.lean ====
section
/-! DEFINITION. The ALU (simple_alu_8bit, R120) and its three instructions (spec/42_alu.md). -/

namespace Sys2Proof.Machine

/-- Add (R120, R150): the exact sum modulo 256. -/
def aluAdd (a b : Byte) : Byte := BitVec.ofNat 8 (a.toNat + b.toNat)

/-- Multiply (R120, R150): the exact product modulo 256. -/
def aluMul (a b : Byte) : Byte := BitVec.ofNat 8 (a.toNat * b.toNat)

/-- Compare (R120, R153): are all eight bits equal? -/
def aluEq (a b : Byte) : Bool := a == b

/-- ADD (R151). -/
def execAdd (opA opB : Byte) (s : State) : Host.Outcome State Fault Refusal :=
  withRegs opA opB s fun a b => .ok (advance 3 (writeReg a (aluAdd (readReg s a) (readReg s b)) s))

/-- MULTIPLY (R152). -/
def execMul (opA opB : Byte) (s : State) : Host.Outcome State Fault Refusal :=
  withRegs opA opB s fun a b => .ok (advance 3 (writeReg a (aluMul (readReg s a) (readReg s b)) s))

/-- COMPARE (R153). -/
def execCmp (opA opB : Byte) (s : State) : Host.Outcome State Fault Refusal :=
  withRegs opA opB s fun a b => .ok (advance 3 (writeEqual (aluEq (readReg s a) (readReg s b)) s))

end Sys2Proof.Machine
end

