-- ==== Sys2Proof/Machine/Control.lean ====
section
/-! DEFINITION. JUMP, JUMP-IF-EQUAL, JUMP-IF-NOT-EQUAL, CALL and RETURN (spec/44_control_transfer.md). -/

namespace Sys2Proof.Machine

/-- JUMP (R171). -/
def execJmp (opA : Byte) (s : State) : Host.Outcome State Fault Refusal :=
  withReg opA s fun a => .ok (branch (.jmp opA) a s)

/-- JUMP-IF-EQUAL (R172). -/
def execJeq (opA : Byte) (s : State) : Host.Outcome State Fault Refusal :=
  withReg opA s fun a => .ok (branch (.jeq opA) a s)

/-- JUMP-IF-NOT-EQUAL (R173). -/
def execJne (opA : Byte) (s : State) : Host.Outcome State Fault Refusal :=
  withReg opA s fun a => .ok (branch (.jne opA) a s)

/-- The return address of a CALL, a natural number, checked to be a memory address (R174, R196). -/
def returnAddr (s : State) : Except FaultCause Byte :=
  if s.pc.toNat + 2 < Config.memSize then .ok (BitVec.ofNat 8 (s.pc.toNat + 2))
  else .error (.memoryOutOfBounds (s.pc.toNat + 2))

/-- CALL (R174): the target register is read after SP has been decremented (R165). -/
def execCall (opA : Byte) (s : State) : Host.Outcome State Fault Refusal :=
  withReg opA s fun a => do
    let r ← returnAddr s
    let t ← pushByte (fun _ => r) s
    return branch (.call opA) a t

/-- RETURN (R175). -/
def execRet (s : State) : Host.Outcome State Fault Refusal :=
  commit s (do
    let v ← topOfStack s
    return loadPc v (incSp s))

end Sys2Proof.Machine
end

