-- ==== Sys2Proof/Machine/LoadPrintHalt.lean ====
section
/-! DEFINITION. LOAD-IMMEDIATE, PRINT-REGISTER and HALT (spec/41_load_print_halt.md). -/

namespace Sys2Proof.Machine

/-- LOAD-IMMEDIATE (R140). -/
def execLdi (opA opB : Byte) (s : State) : Host.Outcome State Fault Refusal :=
  withReg opA s fun a => .ok (advance 3 (writeReg a opB s))

/-- PRINT-REGISTER (R141). -/
def execPrn (opA : Byte) (s : State) : Host.Outcome State Fault Refusal :=
  withReg opA s fun a => .ok (advance 2 (emit (readReg s a) s))

/-- HALT (R142): `pc` is not written. -/
def execHlt (s : State) : Host.Outcome State Fault Refusal :=
  commit s (.ok (halt s))

end Sys2Proof.Machine
end

