-- ==== Sys2Proof/Machine/Stack.lean ====
section
/-! DEFINITION. PUSH and POP (spec/43_stack.md). -/

namespace Sys2Proof.Machine

/-- PUSH (R161): the source register is read after SP has been decremented (R165). -/
def execPush (opA : Byte) (s : State) : Host.Outcome State Fault Refusal :=
  withReg opA s fun a => do
    let t ← pushByte (fun u => readReg u a) s
    return advance 2 t

/-- POP (R162): SP is incremented after the destination register has been written (R165). -/
def execPop (opA : Byte) (s : State) : Host.Outcome State Fault Refusal :=
  withReg opA s fun a => do
    let v ← topOfStack s
    return advance 2 (incSp (writeReg a v s))

end Sys2Proof.Machine
end

