-- ==== Sys2Proof/Machine/Interface.lean ====
section
/-! DEFINITION. The interfaces of the block other than the step (R110): reset, program load, the fault report and
the consumer's rendering of the output channel. -/

namespace Sys2Proof.Machine

/-- Reset, at any time: every state element takes its reset value and nothing of the previous run is kept (R110,
R220). -/
def applyReset (_ : State) : State := State.reset

/-- Write the bytes of an image at ascending addresses from `a` (R222). -/
def loadBytes (a : Nat) : List Byte → Memory → Memory
  | [], m => m
  | v :: vs, m => loadBytes (a + 1) vs (Memory.write a v m)

/-- The start state `S0(image)` of R224: reset, then the program load of R222.  An image longer than memory is not
loadable and no run is defined for it (R223). -/
def launch (image : List Byte) : Option State :=
  if image.length ≤ Config.memSize then
    some { State.reset with mem := loadBytes Config.loadBase image State.reset.mem }
  else none

/-- The code of the fault report (R191); `none` is the cause `None`. -/
def faultCode : Option FaultCause → Nat
  | none => 0
  | some (.unrecognizedOpcode _ _) => 1
  | some (.registerOutOfBounds _) => 2
  | some (.memoryOutOfBounds _) => 3

/-- The shortest decimal numeral of a value (R33, R207). -/
def renderValue (v : Byte) : List Char := Nat.toDigits 10 v.toNat

/-- The output channel as the consumer writes it: one line a value, each ended by the host's own newline (R207). -/
def renderOut (newline : List Char) (out : List Byte) : List Char :=
  out.flatMap fun v => renderValue v ++ newline

end Sys2Proof.Machine
end

