-- ==== Sys2Proof/Machine/Step.lean ====
section
/-! DEFINITION. One step (R116), and the placing of one instruction where the step fetches it. -/

namespace Sys2Proof.Machine

/-- `Step()` (R116).  It is defined only when the run state is Running; a machine in a terminal state has no
successor (R123). -/
def step (s : State) : Host.Outcome State Fault Refusal :=
  match s.run with
  | .halted => .fault .alreadyHalted
  | .faulted => .fault (.alreadyFaulted s.faultCause)
  | .running =>
    match fetch s with
    | .error c => .next (takeFault c s)
    | .ok i => exec i s

/-- `s` with the bytes of a table word stored at `pc`, `pc + 1`, `pc + 2` (those of them that exist), and Running with
no fault recorded, which is all a fetch needs besides (log entry 9).  It stands for the program load from outside
(R222); all three bytes exist when `pc` is at most 253. -/
def State.withFetchWord (s : State) (nbits w : Nat) : State :=
  { s with
    mem := loadBytes s.pc.toNat ((tableBytes nbits w).take (Config.memSize - s.pc.toNat)) s.mem
    run := .running
    faultCause := none }

end Sys2Proof.Machine
end

