-- ==== Sys2Proof/Safety.lean ====
section
/-! DEFINITION. The terms that claims use: the bytes at the program counter, the state a fault leaves, which fault a
step owes (R199), how a run ends (R202), and the invariant of the state. -/

namespace Sys2Proof.Safety

open Sys2Proof.Machine

/-- The byte at `pc + n`. -/
def byteAt (s : State) (n : Nat) : Byte := Memory.read s.mem (s.pc.toNat + n)

/-- The bytes from `pc` to the end of memory. -/
def codeAt (s : State) : List Byte := (List.range (256 - s.pc.toNat)).map (byteAt s)

/-- The machine is Running and the opcode it is about to fetch is `op`. -/
abbrev Fetching (s : State) (op : Byte) : Prop := s.run = .running ∧ s.pc.toNat < 256 ∧ byteAt s 0 = op

/-- The state R198 gives after a fault: it differs in the run state and the fault cause and in nothing else. -/
def faultedWith (c : FaultCause) (s : State) : State := { s with run := .faulted, faultCause := some c }

/-- "A model states "the program ended cleanly" as `run = Halted`" (R202). -/
abbrev CleanEnd (s : State) : Prop := s.run = .halted

/-- "and takes `run` not Faulted as its "no fault recorded" premise" (R202). -/
abbrev NoFaultRecorded (s : State) : Prop := s.run ≠ .faulted

/-- The opcodes of width 1, of width 2 and of width 3, as R84 lists them. -/
def opcodes1 : List Byte := [0x01, 0x11]
def opcodes2 : List Byte := [0x47, 0x45, 0x46, 0x50, 0x55, 0x56, 0x54]
def opcodes3 : List Byte := [0x82, 0xA0, 0xA2, 0xA7]

/-- The opcodes whose second operand is a register: format RR (R81). -/
def opcodesRR : List Byte := [0xA0, 0xA2, 0xA7]

/-- The fault that a step from a Running state owes, by the order of R199; `none` where it owes none. -/
def faultDue (s : State) : Option FaultCause :=
  let at0 := s.pc.toNat
  let op := byteAt s 0
  if 256 ≤ at0 then some (.memoryOutOfBounds at0)
  else if op ∉ opcodes1 ++ opcodes2 ++ opcodes3 then some (.unrecognizedOpcode op s.pc)
  else if op ∉ opcodes1 ∧ 256 ≤ at0 + 1 then some (.memoryOutOfBounds (at0 + 1))
  else if op ∈ opcodes3 ∧ 256 ≤ at0 + 2 then some (.memoryOutOfBounds (at0 + 2))
  else if op ∉ opcodes1 ∧ 8 ≤ (byteAt s 1).toNat then some (.registerOutOfBounds (byteAt s 1))
  else if op ∈ opcodesRR ∧ 8 ≤ (byteAt s 2).toNat then some (.registerOutOfBounds (byteAt s 2))
  else if op = 0x50 ∧ 256 ≤ at0 + 2 then some (.memoryOutOfBounds (at0 + 2))
  else none

/-- What a fault cause may record (R191): an opcode byte that is none of the 13, a register operand of 8 or more, the
address 256. -/
def CauseLegal : FaultCause → Prop
  | .unrecognizedOpcode op _ => op ∉ opcodes1 ++ opcodes2 ++ opcodes3
  | .registerOutOfBounds i => 8 ≤ i.toNat
  | .memoryOutOfBounds a => a = 256

/-- The invariant of the state. -/
structure StateInv (s : State) : Prop where
  /-- The program counter is 0 to 256 (R26). -/
  pc_le : s.pc.toNat ≤ 256
  /-- Memory is in its canonical form: the model's own form, no rule of the spec (log entry 3, DEDUCED). -/
  mem_wf : Memory.wf s.mem
  /-- Flags 0 to 6 are 0 (R30). -/
  flags_zero : ∀ k : FlagIdx, k ≠ Config.equalIndex → readFlag s k = false
  /-- A cause is recorded exactly in Faulted (R32). -/
  cause_iff : s.faultCause = none ↔ s.run ≠ .faulted
  /-- The recorded information is legal (R191). -/
  cause_legal : ∀ c, s.faultCause = some c → CauseLegal c
  /-- A recorded opcode is the byte at the recorded address, which is still the program counter (R191, R198). -/
  cause_true : ∀ op p, s.faultCause = some (.unrecognizedOpcode op p) → p = s.pc ∧ byteAt s 0 = op

end Sys2Proof.Safety
end

