-- ==== Sys2Proof/Certificates/Slice0/Obligations.lean ====
section
/-! DEFINITION. The statements for the provers.  Operand bytes that name a register are written
`BitVec.ofNat 8 a.val` for `a : RegIdx`, so a statement over all `a` covers all eight registers; the operand bytes 8 to
255 are covered by `RegisterOperandsAreChecked` and by the statements about steps. -/

open Sys2Proof Sys2Proof.Machine Sys2Proof.Safety

/-! ### Reset and program load -/

/-- R36, R220: every state element after reset, whatever the machine held before; nothing but reset leaves a terminal
state; the load that follows changes memory only. -/
def Obligations.ResetGivesEveryElementItsValue : Prop :=
  (∀ i : RegIdx, readReg State.reset i = 0) ∧ (∀ k : FlagIdx, readFlag State.reset k = false) ∧
  State.reset.pc = 0 ∧ (∀ a < 256, Memory.read State.reset.mem a = 0) ∧ State.reset.run = .running ∧
  State.reset.faultCause = none ∧ State.reset.out = [] ∧
  (∀ s, applyReset s = State.reset) ∧
  (∀ s t, s.run ≠ .running → step s ≠ .next t) ∧
  ∀ image t, launch image = some t → t = { State.reset with mem := t.mem }

/-- R222, R224: the launch state of an image that fits. -/
def Obligations.LaunchPlacesTheImage : Prop :=
  ∀ image : List Byte, image.length ≤ 256 → ∃ t, launch image = some t ∧
    (∀ i : RegIdx, readReg t i = 0) ∧ (∀ k : FlagIdx, readFlag t k = false) ∧ t.pc = 0 ∧
    (∀ a, Memory.read t.mem a = image[a]?.getD 0) ∧
    t.run = .running ∧ t.faultCause = none ∧ t.out = []

/-- R223: an image is loadable exactly when it fits, and the empty image's first step faults. -/
def Obligations.OverlongImageIsNotLoadable : Prop :=
  (∀ image : List Byte, (launch image).isSome ↔ image.length ≤ 256) ∧
  ∃ s, launch [] = some s ∧ (∀ a, Memory.read s.mem a = 0) ∧
    step s = .next (faultedWith (.unrecognizedOpcode 0 0) s)

/-! ### What each instruction does on register operands in range: it completes, with this next state -/

/-- R140. -/
def Obligations.LoadImmediateResult : Prop :=
  ∀ (a : RegIdx) (v : Byte) (s : State),
    exec (.ldi (BitVec.ofNat 8 a.val) v) s = .next { s with regs := s.regs.set a.val v, pc := s.pc + 3 }

/-- R141. -/
def Obligations.PrintRegisterResult : Prop :=
  ∀ (a : RegIdx) (s : State),
    exec (.prn (BitVec.ofNat 8 a.val)) s = .next { s with out := s.out ++ [s.regs[a.val]], pc := s.pc + 2 }

/-- R150, R151, R152: the destination gets the exact natural number modulo 256. -/
def Obligations.AddAndMultiplyResult : Prop :=
  ∀ (a b : RegIdx) (s : State),
    (∃ v : Byte, v.toNat = (s.regs[a.val].toNat + s.regs[b.val].toNat) % 256 ∧
      exec (.add (BitVec.ofNat 8 a.val) (BitVec.ofNat 8 b.val)) s =
        .next { s with regs := s.regs.set a.val v, pc := s.pc + 3 }) ∧
    (∃ v : Byte, v.toNat = (s.regs[a.val].toNat * s.regs[b.val].toNat) % 256 ∧
      exec (.mul (BitVec.ofNat 8 a.val) (BitVec.ofNat 8 b.val)) s =
        .next { s with regs := s.regs.set a.val v, pc := s.pc + 3 })

/-- R153. -/
def Obligations.CompareResult : Prop :=
  ∀ (a b : RegIdx) (s : State),
    exec (.cmp (BitVec.ofNat 8 a.val) (BitVec.ofNat 8 b.val)) s =
      .next { s with flags := s.flags.set 7 (decide (s.regs[a.val] = s.regs[b.val])), pc := s.pc + 3 }

/-- R161: `x[a]` is read after SP has been written. -/
def Obligations.PushResult : Prop :=
  ∀ (a : RegIdx) (s : State),
    exec (.push (BitVec.ofNat 8 a.val)) s =
      .next { s with
        regs := s.regs.set 7 (s.regs[7] - 1)
        mem := Memory.write (s.regs[7] - 1).toNat (s.regs.set 7 (s.regs[7] - 1))[a.val] s.mem
        pc := s.pc + 2 }

/-- R162: SP is read again after `x[a]` has been written. -/
def Obligations.PopResult : Prop :=
  ∀ (a : RegIdx) (s : State) (v : Byte), v = Memory.read s.mem s.regs[7].toNat →
    exec (.pop (BitVec.ofNat 8 a.val)) s =
      .next { s with regs := (s.regs.set a.val v).set 7 ((s.regs.set a.val v)[7] + 1), pc := s.pc + 2 }

/-- R171, R172, R173. -/
def Obligations.JumpResult : Prop :=
  ∀ (a : RegIdx) (s : State),
    exec (.jmp (BitVec.ofNat 8 a.val)) s = .next { s with pc := s.regs[a.val].setWidth 9 } ∧
    exec (.jeq (BitVec.ofNat 8 a.val)) s =
      .next { s with pc := if s.flags[7] = true then s.regs[a.val].setWidth 9 else s.pc + 2 } ∧
    exec (.jne (BitVec.ofNat 8 a.val)) s =
      .next { s with pc := if s.flags[7] = false then s.regs[a.val].setWidth 9 else s.pc + 2 }

/-- R174: where the return address is a memory address. -/
def Obligations.CallResult : Prop :=
  ∀ (a : RegIdx) (s : State), s.pc.toNat + 2 < 256 →
    exec (.call (BitVec.ofNat 8 a.val)) s =
      .next { s with
        regs := s.regs.set 7 (s.regs[7] - 1)
        mem := Memory.write (s.regs[7] - 1).toNat (BitVec.ofNat 8 (s.pc.toNat + 2)) s.mem
        pc := (s.regs.set 7 (s.regs[7] - 1))[a.val].setWidth 9 }

/-- R142, R175: the two instructions without operands. -/
def Obligations.HaltAndReturnResult : Prop :=
  ∀ s : State,
    exec .hlt s = .next { s with run := .halted } ∧
    exec .ret s =
      .next { s with
        regs := s.regs.set 7 (s.regs[7] + 1)
        pc := (Memory.read s.mem s.regs[7].toNat).setWidth 9 }

/-! ### What a step does on each instruction's bytes: the whole instruction rule, faults and their order included -/

/-- R140. -/
def Obligations.LoadImmediateStep : Prop :=
  ∀ s, Fetching s 0x82 →
    (s.pc.toNat = 255 → step s = .next (faultedWith (.memoryOutOfBounds 256) s)) ∧
    (s.pc.toNat = 254 → step s = .next (faultedWith (.memoryOutOfBounds 256) s)) ∧
    (s.pc.toNat ≤ 253 → 8 ≤ (byteAt s 1).toNat →
      step s = .next (faultedWith (.registerOutOfBounds (byteAt s 1)) s)) ∧
    (s.pc.toNat ≤ 253 → ∀ a : RegIdx, a.val = (byteAt s 1).toNat →
      step s = .next { s with regs := s.regs.set a.val (byteAt s 2), pc := s.pc + 3 })

/-- R141. -/
def Obligations.PrintRegisterStep : Prop :=
  ∀ s, Fetching s 0x47 →
    (s.pc.toNat = 255 → step s = .next (faultedWith (.memoryOutOfBounds 256) s)) ∧
    (s.pc.toNat ≤ 254 → 8 ≤ (byteAt s 1).toNat →
      step s = .next (faultedWith (.registerOutOfBounds (byteAt s 1)) s)) ∧
    (s.pc.toNat ≤ 254 → ∀ a : RegIdx, a.val = (byteAt s 1).toNat →
      step s = .next { s with out := s.out ++ [s.regs[a.val]], pc := s.pc + 2 })

/-- R142: HALT at any address, nothing executes after it, and nothing else halts. -/
def Obligations.HaltStep : Prop :=
  (∀ s, Fetching s 0x01 → step s = .next { s with run := .halted } ∧
    ∀ t, step { s with run := .halted } ≠ .next t) ∧
  ∀ s t, step s = .next t → t.run = .halted → Fetching s 0x01

/-- R151. -/
def Obligations.AddStep : Prop :=
  ∀ s, Fetching s 0xA0 →
    (254 ≤ s.pc.toNat → step s = .next (faultedWith (.memoryOutOfBounds 256) s)) ∧
    (s.pc.toNat ≤ 253 → 8 ≤ (byteAt s 1).toNat →
      step s = .next (faultedWith (.registerOutOfBounds (byteAt s 1)) s)) ∧
    (s.pc.toNat ≤ 253 → (byteAt s 1).toNat < 8 → 8 ≤ (byteAt s 2).toNat →
      step s = .next (faultedWith (.registerOutOfBounds (byteAt s 2)) s)) ∧
    (s.pc.toNat ≤ 253 → ∀ a b : RegIdx, a.val = (byteAt s 1).toNat → b.val = (byteAt s 2).toNat →
      ∃ v : Byte, v.toNat = (s.regs[a.val].toNat + s.regs[b.val].toNat) % 256 ∧
        step s = .next { s with regs := s.regs.set a.val v, pc := s.pc + 3 })

/-- R152. -/
def Obligations.MultiplyStep : Prop :=
  ∀ s, Fetching s 0xA2 →
    (254 ≤ s.pc.toNat → step s = .next (faultedWith (.memoryOutOfBounds 256) s)) ∧
    (s.pc.toNat ≤ 253 → 8 ≤ (byteAt s 1).toNat →
      step s = .next (faultedWith (.registerOutOfBounds (byteAt s 1)) s)) ∧
    (s.pc.toNat ≤ 253 → (byteAt s 1).toNat < 8 → 8 ≤ (byteAt s 2).toNat →
      step s = .next (faultedWith (.registerOutOfBounds (byteAt s 2)) s)) ∧
    (s.pc.toNat ≤ 253 → ∀ a b : RegIdx, a.val = (byteAt s 1).toNat → b.val = (byteAt s 2).toNat →
      ∃ v : Byte, v.toNat = (s.regs[a.val].toNat * s.regs[b.val].toNat) % 256 ∧
        step s = .next { s with regs := s.regs.set a.val v, pc := s.pc + 3 })

/-- R153. -/
def Obligations.CompareStep : Prop :=
  ∀ s, Fetching s 0xA7 →
    (254 ≤ s.pc.toNat → step s = .next (faultedWith (.memoryOutOfBounds 256) s)) ∧
    (s.pc.toNat ≤ 253 → 8 ≤ (byteAt s 1).toNat →
      step s = .next (faultedWith (.registerOutOfBounds (byteAt s 1)) s)) ∧
    (s.pc.toNat ≤ 253 → (byteAt s 1).toNat < 8 → 8 ≤ (byteAt s 2).toNat →
      step s = .next (faultedWith (.registerOutOfBounds (byteAt s 2)) s)) ∧
    (s.pc.toNat ≤ 253 → ∀ a b : RegIdx, a.val = (byteAt s 1).toNat → b.val = (byteAt s 2).toNat →
      step s = .next { s with flags := s.flags.set 7 (decide (s.regs[a.val] = s.regs[b.val])), pc := s.pc + 3 })

/-- R161. -/
def Obligations.PushStep : Prop :=
  ∀ s, Fetching s 0x45 →
    (s.pc.toNat = 255 → step s = .next (faultedWith (.memoryOutOfBounds 256) s)) ∧
    (s.pc.toNat ≤ 254 → 8 ≤ (byteAt s 1).toNat →
      step s = .next (faultedWith (.registerOutOfBounds (byteAt s 1)) s)) ∧
    (s.pc.toNat ≤ 254 → ∀ a : RegIdx, a.val = (byteAt s 1).toNat →
      step s = .next { s with
        regs := s.regs.set 7 (s.regs[7] - 1)
        mem := Memory.write (s.regs[7] - 1).toNat (s.regs.set 7 (s.regs[7] - 1))[a.val] s.mem
        pc := s.pc + 2 })

/-- R162. -/
def Obligations.PopStep : Prop :=
  ∀ s, Fetching s 0x46 →
    (s.pc.toNat = 255 → step s = .next (faultedWith (.memoryOutOfBounds 256) s)) ∧
    (s.pc.toNat ≤ 254 → 8 ≤ (byteAt s 1).toNat →
      step s = .next (faultedWith (.registerOutOfBounds (byteAt s 1)) s)) ∧
    (s.pc.toNat ≤ 254 → ∀ (a : RegIdx) (v : Byte), a.val = (byteAt s 1).toNat →
      v = Memory.read s.mem s.regs[7].toNat →
      step s = .next { s with regs := (s.regs.set a.val v).set 7 ((s.regs.set a.val v)[7] + 1), pc := s.pc + 2 })

/-- R171. -/
def Obligations.JumpStep : Prop :=
  ∀ s, Fetching s 0x54 →
    (s.pc.toNat = 255 → step s = .next (faultedWith (.memoryOutOfBounds 256) s)) ∧
    (s.pc.toNat ≤ 254 → 8 ≤ (byteAt s 1).toNat →
      step s = .next (faultedWith (.registerOutOfBounds (byteAt s 1)) s)) ∧
    (s.pc.toNat ≤ 254 → ∀ a : RegIdx, a.val = (byteAt s 1).toNat →
      step s = .next { s with pc := s.regs[a.val].setWidth 9 })

/-- R172: the operand is checked whether or not the jump is taken. -/
def Obligations.JumpIfEqualStep : Prop :=
  ∀ s, Fetching s 0x55 →
    (s.pc.toNat = 255 → step s = .next (faultedWith (.memoryOutOfBounds 256) s)) ∧
    (s.pc.toNat ≤ 254 → 8 ≤ (byteAt s 1).toNat →
      step s = .next (faultedWith (.registerOutOfBounds (byteAt s 1)) s)) ∧
    (s.pc.toNat ≤ 254 → ∀ a : RegIdx, a.val = (byteAt s 1).toNat → s.flags[7] = true →
      step s = .next { s with pc := s.regs[a.val].setWidth 9 }) ∧
    (s.pc.toNat ≤ 254 → (byteAt s 1).toNat < 8 → s.flags[7] = false → step s = .next { s with pc := s.pc + 2 })

/-- R173: the operand is checked whether or not the jump is taken. -/
def Obligations.JumpIfNotEqualStep : Prop :=
  ∀ s, Fetching s 0x56 →
    (s.pc.toNat = 255 → step s = .next (faultedWith (.memoryOutOfBounds 256) s)) ∧
    (s.pc.toNat ≤ 254 → 8 ≤ (byteAt s 1).toNat →
      step s = .next (faultedWith (.registerOutOfBounds (byteAt s 1)) s)) ∧
    (s.pc.toNat ≤ 254 → ∀ a : RegIdx, a.val = (byteAt s 1).toNat → s.flags[7] = false →
      step s = .next { s with pc := s.regs[a.val].setWidth 9 }) ∧
    (s.pc.toNat ≤ 254 → (byteAt s 1).toNat < 8 → s.flags[7] = true → step s = .next { s with pc := s.pc + 2 })

/-- R174: the operand fetch, the register check and the return address fault in this order. -/
def Obligations.CallStep : Prop :=
  ∀ s, Fetching s 0x50 →
    (s.pc.toNat = 255 → step s = .next (faultedWith (.memoryOutOfBounds 256) s)) ∧
    (s.pc.toNat ≤ 254 → 8 ≤ (byteAt s 1).toNat →
      step s = .next (faultedWith (.registerOutOfBounds (byteAt s 1)) s)) ∧
    (s.pc.toNat = 254 → (byteAt s 1).toNat < 8 → step s = .next (faultedWith (.memoryOutOfBounds 256) s)) ∧
    (s.pc.toNat ≤ 253 → ∀ a : RegIdx, a.val = (byteAt s 1).toNat →
      step s = .next { s with
        regs := s.regs.set 7 (s.regs[7] - 1)
        mem := Memory.write (s.regs[7] - 1).toNat (BitVec.ofNat 8 (s.pc.toNat + 2)) s.mem
        pc := (s.regs.set 7 (s.regs[7] - 1))[a.val].setWidth 9 })

/-- R175: RETURN has no fault of its own, at any address. -/
def Obligations.ReturnStep : Prop :=
  ∀ s, Fetching s 0x11 →
    step s = .next { s with
      regs := s.regs.set 7 (s.regs[7] + 1)
      pc := (Memory.read s.mem s.regs[7].toNat).setWidth 9 }

/-! ### Faults and the run state -/

/-- R199: the fault a step raises is the first in the rule's order whose condition holds, and a step that owes none
raises none. -/
def Obligations.FaultPriority : Prop :=
  ∀ s, s.run = .running →
    (∀ c, faultDue s = some c → step s = .next (faultedWith c s)) ∧
    (faultDue s = none → ∃ t, step s = .next t ∧ t.run ≠ .faulted ∧ t.faultCause = s.faultCause)

/-- R198: a faulting step changes the run state and the fault cause, and nothing else. -/
def Obligations.FaultsArePrecise : Prop :=
  ∀ s t, step s = .next t → t.run = .faulted →
    ∃ c, t.faultCause = some c ∧ (∀ i, readReg t i = readReg s i) ∧ (∀ k, readFlag t k = readFlag s k) ∧
      t.pc = s.pc ∧ (∀ a, Memory.read t.mem a = Memory.read s.mem a) ∧ t.out = s.out ∧ t = faultedWith c s

/-- No step is defined in Halted or Faulted (R123).  That `step` says so by `.fault .alreadyHalted` or `.fault
(.alreadyFaulted …)` with the recorded cause is the model's own choice of outcome names (log entry 1, DEDUCED). -/
def Obligations.TerminalStatesHaveNoStep : Prop :=
  ∀ s, s.run ≠ .running →
    (∀ t, step s ≠ .next t) ∧
    (s.run = .halted → step s = .fault .alreadyHalted) ∧
    (s.run = .faulted → step s = .fault (.alreadyFaulted s.faultCause))

/-- R124: while the run state is Running a step is always possible. -/
def Obligations.RunningIsNeverStuck : Prop :=
  ∀ s, (∃ t, step s = .next t) ↔ s.run = .running

/-- R115: the transitions of the execution controller. -/
def Obligations.RunStateTransitions : Prop :=
  (State.reset.run = .running ∧ State.reset.pc = 0) ∧
  ∀ s t, step s = .next t →
    s.run = .running ∧ (t.run = .halted ↔ Fetching s 0x01) ∧ (t.run = .faulted ↔ (faultDue s).isSome)

/-- R89, R192: every byte of the rule's own list of illegal values faults when it is fetched as an opcode. -/
def Obligations.IllegalOpcodesFault : Prop :=
  ∀ s op, Fetching s op →
    op.toNat = 0 ∨ (0x02 ≤ op.toNat ∧ op.toNat ≤ 0x10) ∨ (0x12 ≤ op.toNat ∧ op.toNat ≤ 0x44) ∨
      (0x48 ≤ op.toNat ∧ op.toNat ≤ 0x4F) ∨ (0x51 ≤ op.toNat ∧ op.toNat ≤ 0x53) ∨
      (0x57 ≤ op.toNat ∧ op.toNat ≤ 0x81) ∨ (0x83 ≤ op.toNat ∧ op.toNat ≤ 0x9F) ∨ op.toNat = 0xA1 ∨
      (0xA3 ≤ op.toNat ∧ op.toNat ≤ 0xA6) ∨ 0xA8 ≤ op.toNat →
    step s = .next (faultedWith (.unrecognizedOpcode op s.pc) s)

/-- R114: every operand byte that the format names as a register is checked, `opA` first, before any effect. -/
def Obligations.RegisterOperandsAreChecked : Prop :=
  ∀ (a b : Byte) (s : State),
    (8 ≤ a.toNat →
      ∀ i ∈ [Instr.prn a, .push a, .pop a, .call a, .jeq a, .jne a, .jmp a, .ldi a b, .add a b, .mul a b, .cmp a b],
        exec i s = .next (faultedWith (.registerOutOfBounds a) s)) ∧
    (a.toNat < 8 → 8 ≤ b.toNat →
      ∀ i ∈ [Instr.add a b, .mul a b, .cmp a b], exec i s = .next (faultedWith (.registerOutOfBounds b) s)) ∧
    (a.toNat < 8 → ∃ t, exec (.ldi a b) s = .next t ∧ t.run = s.run)

/-! ### The whole machine -/

/-- R29: who writes and who reads the Equal flag. -/
def Obligations.EqualFlagBelongsToCompare : Prop :=
  equalFlag State.reset = false ∧
  (∀ s t, step s = .next t → ¬ Fetching s 0xA7 → equalFlag t = equalFlag s) ∧
  (∀ (a b : RegIdx) s, ∃ t, exec (.cmp (BitVec.ofNat 8 a.val) (BitVec.ofNat 8 b.val)) s = .next t ∧
    (equalFlag t = true ↔ readReg s a = readReg s b)) ∧
  (∀ s t e, step s = .next t → ¬ Fetching s 0x55 → ¬ Fetching s 0x56 →
    ∃ u, step { s with flags := s.flags.set 7 e } = .next u ∧ { u with flags := t.flags } = t)

/-- R30: flags 0 to 6 are 0 after reset, never written, and never read. -/
def Obligations.OtherFlagsAreInert : Prop :=
  (∀ k : FlagIdx, k.val ≠ 7 → readFlag State.reset k = false) ∧
  (∀ s t (k : FlagIdx), k.val ≠ 7 → step s = .next t → readFlag t k = readFlag s k) ∧
  (∀ s t (f : Vector Bool 8), f[7] = s.flags[7] → step s = .next t →
    ∃ u, step { s with flags := f } = .next u ∧ u.flags[7] = t.flags[7] ∧ { u with flags := t.flags } = t)

/-- R33: PRINT-REGISTER appends one value, nothing else changes the output, and no instruction reads it. -/
def Obligations.OutputOnlyGrowsByPrint : Prop :=
  State.reset.out = [] ∧
  (∀ s t, step s = .next t → t.out = s.out ∨
    Fetching s 0x47 ∧ ∃ a : RegIdx, a.val = (byteAt s 1).toNat ∧ t.out = s.out ++ [readReg s a]) ∧
  ∀ s t pre, step s = .next t → step { s with out := pre ++ s.out } = .next { t with out := pre ++ t.out }

/-- R207: a value's line is its shortest decimal numeral, and lines stand in order, each ended by the newline. -/
def Obligations.RenderingIsShortestDecimal : Prop :=
  (∀ v : Byte,
    (renderValue v).foldl (fun n c => 10 * n + (c.toNat - 48)) 0 = v.toNat ∧
    (∀ c ∈ renderValue v, 48 ≤ c.toNat ∧ c.toNat ≤ 57) ∧
    renderValue v ≠ [] ∧ ((renderValue v).head? = some '0' → renderValue v = ['0'])) ∧
  renderValue 8 = ['8'] ∧ renderValue 12 = ['1', '2'] ∧
  (∀ nl, renderOut nl [] = []) ∧
  ∀ nl out v, renderOut nl (out ++ [v]) = renderOut nl out ++ (renderValue v ++ nl)

/-- R59: PUSH and CALL are the only instructions that change memory, and they change one cell, at the decremented SP. -/
def Obligations.OnlyPushAndCallStore : Prop :=
  ∀ s t x, step s = .next t → Memory.read t.mem x ≠ Memory.read s.mem x →
    (Fetching s 0x45 ∨ Fetching s 0x50) ∧ x = (sp s - 1).toNat

/-- R23, the column of registers written. -/
def Obligations.RegistersWritten : Prop :=
  ∀ s t (j : RegIdx), step s = .next t → readReg t j ≠ readReg s j →
    ((Fetching s 0x82 ∨ Fetching s 0xA0 ∨ Fetching s 0xA2 ∨ Fetching s 0x46) ∧ j.val = (byteAt s 1).toNat) ∨
    ((Fetching s 0x45 ∨ Fetching s 0x46 ∨ Fetching s 0x50 ∨ Fetching s 0x11) ∧ j.val = 7)

/-- R26: the program counter is held, advanced by a width of 2 or 3 without wrapping, loaded from a register, or
loaded from the stack; it stays in 0 to 256, 256 is reached only by an advance, and at 256 the step faults. -/
def Obligations.ProgramCounterWrittenThreeWays : Prop :=
  (∀ s t, s.pc.toNat ≤ 256 → step s = .next t →
    t.pc.toNat ≤ 256 ∧
    (t.pc = s.pc ∨
      (∃ i, fetch s = .ok i ∧ (i.width = 2 ∨ i.width = 3) ∧ t.pc.toNat = s.pc.toNat + i.width) ∨
      ((Fetching s 0x54 ∨ Fetching s 0x50 ∨ (Fetching s 0x55 ∧ equalFlag s = true) ∨
          (Fetching s 0x56 ∧ equalFlag s = false)) ∧
        ∃ a : RegIdx, a.val = (byteAt s 1).toNat ∧ t.pc.toNat = (readReg t a).toNat) ∨
      (Fetching s 0x11 ∧ t.pc.toNat = (Memory.read s.mem (sp s).toNat).toNat))) ∧
  ∀ s, s.run = .running → s.pc = 256 → step s = .next (faultedWith (.memoryOutOfBounds 256) s)

/-- R87, R111: the fetch depends on no byte beyond the instruction's width. -/
def Obligations.FetchReadsOnlyTheWidth : Prop :=
  ∀ s i (m : Memory), fetch s = .ok i →
    (∀ n < i.width, Memory.read m (s.pc.toNat + n) = byteAt s n) → fetch { s with mem := m } = .ok i

/-! ### Stack and control-transfer laws over two steps -/

/-- R164: PUSH and then POP of the same register restores the register and SP; the pushed byte stays in memory. -/
def Obligations.PushThenPopRestores : Prop :=
  ∀ s (r : RegIdx), Fetching s 0x45 → s.pc.toNat ≤ 252 → (byteAt s 1).toNat = r.val → byteAt s 2 = 0x46 →
    (byteAt s 3).toNat = r.val → (sp s - 1).toNat ≠ s.pc.toNat + 2 → (sp s - 1).toNat ≠ s.pc.toNat + 3 →
    ∃ t, step s = .next t ∧
      step t = .next { s with
        mem := Memory.write (sp s - 1).toNat (if r.val = 7 then sp s - 1 else readReg s r) s.mem
        pc := s.pc + 4 }

/-- R178: CALL, and a RETURN at the target, resumes at the byte after the CALL with SP as before; and so does any
later RETURN, in a state `u` where SP is what the CALL left and the pushed byte is still in place. -/
def Obligations.CallThenReturnResumes : Prop :=
  ∀ s, Fetching s 0x50 → s.pc.toNat ≤ 253 → (byteAt s 1).toNat < 8 →
    ∃ t, step s = .next t ∧
      (Fetching t 0x11 → step t = .next { s with mem := t.mem, pc := s.pc + 2 }) ∧
      ∀ u, Fetching u 0x11 → sp u = sp t → Memory.read u.mem (sp u).toNat = Memory.read t.mem (sp t).toNat →
        step u = .next { u with regs := u.regs.set 7 (sp s), pc := s.pc + 2 }

/-- R177: exactly one of the two conditional jumps is taken, and placed one after the other they always transfer. -/
def Obligations.ConditionalJumpsAreExclusive : Prop :=
  (∀ a e, (taken (.jeq a) e = true ∧ taken (.jne a) e = false) ∨ (taken (.jeq a) e = false ∧ taken (.jne a) e = true)) ∧
  ∀ s (a : RegIdx), Fetching s 0x55 → s.pc.toNat ≤ 252 → (byteAt s 1).toNat = a.val → byteAt s 2 = 0x56 →
    (byteAt s 3).toNat = a.val →
    (equalFlag s = true → step s = .next { s with pc := (readReg s a).setWidth 9 }) ∧
    (equalFlag s = false → ∃ t, step s = .next t ∧ step t = .next { s with pc := (readReg s a).setWidth 9 })

/-- R165: the forms in which the order of the parts shows. -/
def Obligations.StackFormsOnRegisterSeven : Prop :=
  ∀ s,
    (∃ t, exec (.push 7) s = .next t ∧ sp t = sp s - 1 ∧ Memory.read t.mem (sp s - 1).toNat = sp s - 1) ∧
    (∃ t, exec (.pop 7) s = .next t ∧ sp t = Memory.read s.mem (sp s).toNat + 1) ∧
    (s.pc.toNat + 2 < 256 → ∃ t, exec (.call 7) s = .next t ∧ sp t = sp s - 1 ∧
      (Memory.read t.mem (sp s - 1).toNat).toNat = s.pc.toNat + 2 ∧ t.pc = (sp s - 1).setWidth 9)

/-- R63: a byte that PUSH stores where the next opcode lies is the opcode the next step fetches. -/
def Obligations.FetchSeesTheStoreBeforeIt : Prop :=
  ∀ s (a : RegIdx), Fetching s 0x45 → s.pc.toNat ≤ 253 → (byteAt s 1).toNat = a.val → a.val ≠ 7 →
    (sp s - 1).toNat = s.pc.toNat + 2 →
    ∃ t, step s = .next t ∧ Fetching t (readReg s a) ∧
      (readReg s a = 0x01 → step t = .next { t with run := .halted })

/-! ### Memory -/

/-- R52: the two primitives, and what a read gives after a write. -/
def Obligations.MemoryPrimitives : Prop :=
  ∀ s a v,
    (256 ≤ a → memRead s a = .error (.memoryOutOfBounds a) ∧ memWrite a v s = .error (.memoryOutOfBounds a)) ∧
    (a < 256 → memRead s a = .ok (Memory.read s.mem a) ∧
      ∃ t, memWrite a v s = .ok t ∧ t = { s with mem := t.mem } ∧ memRead t a = .ok v ∧
        ∀ b, b ≠ a → memRead t b = memRead s b)

/-- The model's own form of memory (log entry 3): two memories in canonical form that read alike are equal. -/
def Obligations.CanonicalMemoryIsUnique : Prop :=
  ∀ m m' : Memory, Memory.wf m → Memory.wf m' → (∀ a < 256, Memory.read m a = Memory.read m' a) → m = m'

/-! ### The invariant -/

/-- The invariant holds after reset.  Its conjunct that memory is canonical is about the model's own form of memory
(log entry 3, DEDUCED). -/
def Obligations.ResetMeetsInvariant : Prop := StateInv State.reset

/-- The invariant holds in every launch state.  Its conjunct that memory is canonical is about the model's own form of
memory (log entry 3, DEDUCED). -/
def Obligations.LaunchMeetsInvariant : Prop := ∀ image t, launch image = some t → StateInv t

/-- Every step keeps the invariant.  Its conjunct that memory is canonical is about the model's own form of memory (log
entry 3, DEDUCED). -/
def Obligations.StepKeepsInvariant : Prop := ∀ s t, StateInv s → step s = .next t → StateInv t

/-! ### Encoding -/

/-- Decoding and encoding agree, both ways and for every operand byte: a list of bytes decodes to `i` exactly when it
is the encoding of `i` followed by the rest. -/
def Obligations.DecodeInvertsEncode : Prop :=
  ∀ bs i rest, decode bs = .ok (i, rest) ↔ bs = encode i ++ rest

/-- R83: each row of the opcode table, with its width and the order of its operand bytes. -/
def Obligations.OpcodeTableDecodes : Prop :=
  ∀ (a b : Byte) (rest : List Byte),
    decode (0b10000010 :: a :: b :: rest) = .ok (.ldi a b, rest) ∧
    decode (0b01000111 :: a :: rest) = .ok (.prn a, rest) ∧
    decode (0b10100000 :: a :: b :: rest) = .ok (.add a b, rest) ∧
    decode (0b10100010 :: a :: b :: rest) = .ok (.mul a b, rest) ∧
    decode (0b10100111 :: a :: b :: rest) = .ok (.cmp a b, rest) ∧
    decode (0b00000001 :: rest) = .ok (.hlt, rest) ∧
    decode (0b01000101 :: a :: rest) = .ok (.push a, rest) ∧
    decode (0b01000110 :: a :: rest) = .ok (.pop a, rest) ∧
    decode (0b01010000 :: a :: rest) = .ok (.call a, rest) ∧
    decode (0b00010001 :: rest) = .ok (.ret, rest) ∧
    decode (0b01010101 :: a :: rest) = .ok (.jeq a, rest) ∧
    decode (0b01010110 :: a :: rest) = .ok (.jne a, rest) ∧
    decode (0b01010100 :: a :: rest) = .ok (.jmp a, rest)

/-- A step runs what the decoder reads from the bytes of memory at the program counter.  `exec` moves the program
counter itself (R117), so the step adds nothing around it; where the bytes decode to nothing the step takes the fault
of R112. -/
def Obligations.StepRunsTheDecodedInstruction : Prop :=
  ∀ s, s.run = .running →
    (∀ i rest, decode (codeAt s) = .ok (i, rest) → step s = exec i s) ∧
    (∀ n, decode (codeAt s) = .error (.missingByte n) →
      step s = .next (faultedWith (.memoryOutOfBounds (s.pc.toNat + n)) s)) ∧
    (∀ op, decode (codeAt s) = .error (.unknownOpcode op) →
      step s = .next (faultedWith (.unrecognizedOpcode op s.pc) s))

/-- The model's own way of placing one instruction (log entry 9): the next step runs the instruction that the decoder
reads from the table word. -/
def Obligations.PlacedWordIsTheNextInstruction : Prop :=
  ∀ (s : State) (nbits w : Nat) (i : Instr), s.pc.toNat ≤ 253 → decodeTableWord nbits w = some i →
    step (s.withFetchWord nbits w) = exec i (s.withFetchWord nbits w)

/-! ### Frames: what an instruction leaves unchanged when `exec` gives a next state -/

/-- LOAD-IMMEDIATE, ADD, MULTIPLY: only the destination register `opA` and the program counter, or the run state and
the fault cause where an operand is out of range (R155, R198). -/
def Obligations.RegisterDestinationFrame : Prop :=
  ∀ (a b : Byte) (i : Instr) (s t : State), i = .ldi a b ∨ i = .add a b ∨ i = .mul a b → exec i s = .next t →
    (∀ j : RegIdx, j.val ≠ a.toNat → readReg t j = readReg s j) ∧
    (∀ k, readFlag t k = readFlag s k) ∧ (∀ x, Memory.read t.mem x = Memory.read s.mem x) ∧ t.out = s.out ∧
    (WellFormed i → t.run = s.run ∧ t.faultCause = s.faultCause)

/-- PRINT-REGISTER, COMPARE, HALT and the three jumps: no register and no byte of memory; one flag by COMPARE, the
output by PRINT-REGISTER, the run state by HALT, and the run state and the fault cause where an operand is out of
range (R155, R180, R198). -/
def Obligations.NoRegisterNoStoreFrame : Prop :=
  ∀ (a b : Byte) (i : Instr) (s t : State),
    i = .prn a ∨ i = .cmp a b ∨ i = .hlt ∨ i = .jmp a ∨ i = .jeq a ∨ i = .jne a → exec i s = .next t →
    (∀ j, readReg t j = readReg s j) ∧ (∀ x, Memory.read t.mem x = Memory.read s.mem x) ∧
    (∀ k : FlagIdx, (i = .cmp a b → k.val ≠ 7) → readFlag t k = readFlag s k) ∧
    (i ≠ .prn a → t.out = s.out) ∧
    (WellFormed i → i ≠ .hlt → t.run = s.run) ∧ (WellFormed i → t.faultCause = s.faultCause) ∧
    (i = .hlt → t.pc = s.pc)

/-- PUSH and CALL: register 7, the program counter and the one byte at the address `pushAddr` computes from the state
before the decrement, or the run state and the fault cause where the instruction faults (R180, R198). -/
def Obligations.PushAndCallFrame : Prop :=
  ∀ (a : Byte) (i : Instr) (s t : State), i = .push a ∨ i = .call a → exec i s = .next t →
    (∀ j : RegIdx, j.val ≠ 7 → readReg t j = readReg s j) ∧ (∀ k, readFlag t k = readFlag s k) ∧ t.out = s.out ∧
    (∀ x, x ≠ pushAddr s → Memory.read t.mem x = Memory.read s.mem x) ∧
    (WellFormed i → (i = .call a → s.pc.toNat + 2 < 256) → t.run = s.run ∧ t.faultCause = s.faultCause)

/-- POP and RETURN: register 7 and the program counter, the destination register of POP, or the run state and the
fault cause where the operand of POP is out of range (R162, R180, R198). -/
def Obligations.PopAndReturnFrame : Prop :=
  ∀ (a : Byte) (i : Instr) (s t : State), i = .pop a ∨ i = .ret → exec i s = .next t →
    (∀ j : RegIdx, j.val ≠ 7 → (i = .pop a → j.val ≠ a.toNat) → readReg t j = readReg s j) ∧
    (∀ k, readFlag t k = readFlag s k) ∧ (∀ x, Memory.read t.mem x = Memory.read s.mem x) ∧ t.out = s.out ∧
    (WellFormed i → t.run = s.run ∧ t.faultCause = s.faultCause)
end

