-- ==== Sys2Proof/Laws/Decode.lean ====
section
/-! SUPPORT. What `decodeFrom` does with each opcode byte, and how it relates to `encode`. -/

namespace Sys2Proof

variable {ε : Type} {read : Nat → Except ε Byte} {unknown : Byte → ε}

theorem readR_ok {mk : Byte → Instr} {a : Byte} (h : read 1 = .ok a) : readR read mk = .ok (mk a) := by
  simp [readR, h, bind, Except.bind, pure, Except.pure]

theorem readR_error {mk : Byte → Instr} {e : ε} (h : read 1 = .error e) : readR read mk = .error e := by
  simp [readR, h, bind, Except.bind]

theorem readAB_ok {mk : Byte → Byte → Instr} {a b : Byte} (ha : read 1 = .ok a) (hb : read 2 = .ok b) :
    readAB read mk = .ok (mk a b) := by
  simp [readAB, ha, hb, bind, Except.bind, pure, Except.pure]

theorem readAB_error1 {mk : Byte → Byte → Instr} {e : ε} (h : read 1 = .error e) :
    readAB read mk = .error e := by
  simp [readAB, h, bind, Except.bind]

theorem readAB_error2 {mk : Byte → Byte → Instr} {a : Byte} {e : ε} (ha : read 1 = .ok a) (h : read 2 = .error e) :
    readAB read mk = .error e := by
  simp [readAB, ha, h, bind, Except.bind]

theorem readR_eq_ok {mk : Byte → Instr} {i : Instr} (h : readR read mk = .ok i) :
    ∃ a, read 1 = .ok a ∧ i = mk a := by
  cases ha : read 1 with
  | error e => simp [readR_error ha] at h
  | ok a => rw [readR_ok ha] at h; exact ⟨a, rfl, by simpa using h.symm⟩

theorem readAB_eq_ok {mk : Byte → Byte → Instr} {i : Instr} (h : readAB read mk = .ok i) :
    ∃ a b, read 1 = .ok a ∧ read 2 = .ok b ∧ i = mk a b := by
  cases ha : read 1 with
  | error e => simp [readAB_error1 ha] at h
  | ok a =>
    cases hb : read 2 with
    | error e => simp [readAB_error2 ha hb] at h
    | ok b => rw [readAB_ok ha hb] at h; exact ⟨a, b, rfl, rfl, by simpa using h.symm⟩

/-- The opcode read raises. -/
theorem decodeFrom_error {e : ε} (h : read 0 = .error e) : decodeFrom read unknown = .error e := by
  simp [decodeFrom, h, bind, Except.bind]

/-- The lookup of an opcode byte, once it is read. -/
theorem decodeFrom_of_read {op : Byte} (h : read 0 = .ok op) :
    decodeFrom read unknown = decodeFrom (fun n => if n = 0 then .ok op else read n) unknown := by
  simp [decodeFrom, readR, readAB, h, bind, Except.bind]

section opcodes
theorem decodeFrom_ldi (h : read 0 = .ok 0x82) : decodeFrom read unknown = readAB read .ldi := by
  simp [decodeFrom, h, bind, Except.bind]
theorem decodeFrom_prn (h : read 0 = .ok 0x47) : decodeFrom read unknown = readR read .prn := by
  simp [decodeFrom, h, bind, Except.bind]
theorem decodeFrom_add (h : read 0 = .ok 0xA0) : decodeFrom read unknown = readAB read .add := by
  simp [decodeFrom, h, bind, Except.bind]
theorem decodeFrom_mul (h : read 0 = .ok 0xA2) : decodeFrom read unknown = readAB read .mul := by
  simp [decodeFrom, h, bind, Except.bind]
theorem decodeFrom_cmp (h : read 0 = .ok 0xA7) : decodeFrom read unknown = readAB read .cmp := by
  simp [decodeFrom, h, bind, Except.bind]
theorem decodeFrom_hlt (h : read 0 = .ok 0x01) : decodeFrom read unknown = .ok .hlt := by
  simp [decodeFrom, h, bind, Except.bind, pure, Except.pure]
theorem decodeFrom_push (h : read 0 = .ok 0x45) : decodeFrom read unknown = readR read .push := by
  simp [decodeFrom, h, bind, Except.bind]
theorem decodeFrom_pop (h : read 0 = .ok 0x46) : decodeFrom read unknown = readR read .pop := by
  simp [decodeFrom, h, bind, Except.bind]
theorem decodeFrom_call (h : read 0 = .ok 0x50) : decodeFrom read unknown = readR read .call := by
  simp [decodeFrom, h, bind, Except.bind]
theorem decodeFrom_ret (h : read 0 = .ok 0x11) : decodeFrom read unknown = .ok .ret := by
  simp [decodeFrom, h, bind, Except.bind, pure, Except.pure]
theorem decodeFrom_jeq (h : read 0 = .ok 0x55) : decodeFrom read unknown = readR read .jeq := by
  simp [decodeFrom, h, bind, Except.bind]
theorem decodeFrom_jne (h : read 0 = .ok 0x56) : decodeFrom read unknown = readR read .jne := by
  simp [decodeFrom, h, bind, Except.bind]
theorem decodeFrom_jmp (h : read 0 = .ok 0x54) : decodeFrom read unknown = readR read .jmp := by
  simp [decodeFrom, h, bind, Except.bind]
end opcodes

/-- A byte that is no instruction's opcode is unknown. -/
theorem decodeFrom_unknown {op : Byte} (h : read 0 = .ok op) (hop : ∀ i : Instr, i.opcode ≠ op) :
    decodeFrom read unknown = .error (unknown op) := by
  have hne : ∀ i : Instr, op.toNat ≠ i.opcode.toNat := fun i e => hop i (BitVec.eq_of_toNat_eq e.symm)
  simp only [decodeFrom, h, bind, Except.bind]
  split
  case h_14 => rfl
  case h_1 e => exact absurd e (hne (.ldi 0 0))
  case h_2 e => exact absurd e (hne (.prn 0))
  case h_3 e => exact absurd e (hne (.add 0 0))
  case h_4 e => exact absurd e (hne (.mul 0 0))
  case h_5 e => exact absurd e (hne (.cmp 0 0))
  case h_6 e => exact absurd e (hne .hlt)
  case h_7 e => exact absurd e (hne (.push 0))
  case h_8 e => exact absurd e (hne (.pop 0))
  case h_9 e => exact absurd e (hne (.call 0))
  case h_10 e => exact absurd e (hne .ret)
  case h_11 e => exact absurd e (hne (.jeq 0))
  case h_12 e => exact absurd e (hne (.jne 0))
  case h_13 e => exact absurd e (hne (.jmp 0))

/-- A read that gives an instruction's bytes decodes to it. -/
theorem decodeFrom_of_bytes {i : Instr} (h : ∀ n b, (encode i)[n]? = some b → read n = .ok b) :
    decodeFrom read unknown = .ok i := by
  have h0 := h 0 i.opcode rfl
  cases i with
  | ldi a b => rw [decodeFrom_ldi h0, readAB_ok (h 1 a rfl) (h 2 b rfl)]
  | prn a => rw [decodeFrom_prn h0, readR_ok (h 1 a rfl)]
  | add a b => rw [decodeFrom_add h0, readAB_ok (h 1 a rfl) (h 2 b rfl)]
  | mul a b => rw [decodeFrom_mul h0, readAB_ok (h 1 a rfl) (h 2 b rfl)]
  | cmp a b => rw [decodeFrom_cmp h0, readAB_ok (h 1 a rfl) (h 2 b rfl)]
  | hlt => rw [decodeFrom_hlt h0]
  | push a => rw [decodeFrom_push h0, readR_ok (h 1 a rfl)]
  | pop a => rw [decodeFrom_pop h0, readR_ok (h 1 a rfl)]
  | call a => rw [decodeFrom_call h0, readR_ok (h 1 a rfl)]
  | ret => rw [decodeFrom_ret h0]
  | jeq a => rw [decodeFrom_jeq h0, readR_ok (h 1 a rfl)]
  | jne a => rw [decodeFrom_jne h0, readR_ok (h 1 a rfl)]
  | jmp a => rw [decodeFrom_jmp h0, readR_ok (h 1 a rfl)]

/-- Every opcode byte read is some instruction's or none's. -/
theorem opcode_or_unknown (op : Byte) : (∃ i : Instr, i.opcode = op) ∨ ∀ i : Instr, i.opcode ≠ op := by
  by_cases h : ∃ i : Instr, i.opcode = op
  · exact .inl h
  · exact .inr fun i e => h ⟨i, e⟩

/-- What decoding gives was read byte by byte: inversion of `decodeFrom_of_bytes`. -/
theorem decodeFrom_eq_ok {i : Instr} (h : decodeFrom read unknown = .ok i) :
    ∀ n b, (encode i)[n]? = some b → read n = .ok b := by
  have three : ∀ {mk : Byte → Byte → Instr} {op : Byte}, read 0 = .ok op → readAB read mk = .ok i →
      (∀ a b, encode (mk a b) = [op, a, b]) → ∀ n b, (encode i)[n]? = some b → read n = .ok b := by
    intro mk op h0 hr he
    obtain ⟨a, b, ha, hb, rfl⟩ := readAB_eq_ok hr
    rintro (_ | _ | _ | n) c hc <;> simp [he] at hc <;> subst hc <;> assumption
  have two : ∀ {mk : Byte → Instr} {op : Byte}, read 0 = .ok op → readR read mk = .ok i →
      (∀ a, encode (mk a) = [op, a]) → ∀ n b, (encode i)[n]? = some b → read n = .ok b := by
    intro mk op h0 hr he
    obtain ⟨a, ha, rfl⟩ := readR_eq_ok hr
    rintro (_ | _ | n) c hc <;> simp [he] at hc <;> subst hc <;> assumption
  have one : ∀ {op : Byte}, read 0 = .ok op → encode i = [op] →
      ∀ n b, (encode i)[n]? = some b → read n = .ok b := by
    intro op h0 he
    rintro (_ | n) c hc <;> simp [he] at hc; subst hc; assumption
  cases h0 : read 0 with
  | error e => simp [decodeFrom_error h0] at h
  | ok op =>
    rcases opcode_or_unknown op with ⟨j, rfl⟩ | hop
    · cases j with
      | ldi _ _ => rw [decodeFrom_ldi h0] at h; exact three h0 h fun _ _ => rfl
      | prn _ => rw [decodeFrom_prn h0] at h; exact two h0 h fun _ => rfl
      | add _ _ => rw [decodeFrom_add h0] at h; exact three h0 h fun _ _ => rfl
      | mul _ _ => rw [decodeFrom_mul h0] at h; exact three h0 h fun _ _ => rfl
      | cmp _ _ => rw [decodeFrom_cmp h0] at h; exact three h0 h fun _ _ => rfl
      | hlt => rw [decodeFrom_hlt h0] at h; cases h; exact one h0 rfl
      | push _ => rw [decodeFrom_push h0] at h; exact two h0 h fun _ => rfl
      | pop _ => rw [decodeFrom_pop h0] at h; exact two h0 h fun _ => rfl
      | call _ => rw [decodeFrom_call h0] at h; exact two h0 h fun _ => rfl
      | ret => rw [decodeFrom_ret h0] at h; cases h; exact one h0 rfl
      | jeq _ => rw [decodeFrom_jeq h0] at h; exact two h0 h fun _ => rfl
      | jne _ => rw [decodeFrom_jne h0] at h; exact two h0 h fun _ => rfl
      | jmp _ => rw [decodeFrom_jmp h0] at h; exact two h0 h fun _ => rfl
    · simp [decodeFrom_unknown h0 hop] at h

end Sys2Proof
end

