-- ==== Sys2Proof/Laws/Memory.lean ====
section
/-! SUPPORT. The laws of memory: reading after writing, and every operation keeps the canonical form. -/

namespace Sys2Proof.Machine

@[simp] theorem Memory.read_nil (a : Nat) : Memory.read [] a = Config.unlistedByte := rfl

theorem Memory.read_erase (m : Memory) (a b : Nat) :
    Memory.read (Memory.erase a m) b = if b = a then Config.unlistedByte else Memory.read m b := by
  induction m with
  | nil => simp [Memory.erase]
  | cons c m ih =>
    by_cases hc : c.1 = a
    · by_cases hb : b = a
      · subst hb; simpa [Memory.erase, hc] using ih
      · have : a ≠ b := fun h => hb h.symm
        simp [Memory.erase, Memory.read, hc, hb, ih, this]
    · by_cases hb : b = a
      · subst hb; simp [Memory.erase, Memory.read, hc, ih]
      · simp [Memory.erase, Memory.read, hc, ih, hb]

theorem Memory.mem_erase {m : Memory} {a : Nat} {c : Host.Cell} :
    c ∈ Memory.erase a m ↔ c ∈ m ∧ c.1 ≠ a := by
  induction m with
  | nil => simp [Memory.erase]
  | cons d m ih =>
    by_cases hd : d.1 = a
    · simp only [Memory.erase, hd, if_true, ih, List.mem_cons]
      constructor
      · rintro ⟨h, h'⟩; exact ⟨.inr h, h'⟩
      · rintro ⟨rfl | h, h'⟩
        · exact absurd hd h'
        · exact ⟨h, h'⟩
    · simp only [Memory.erase, hd, if_false, List.mem_cons, ih]
      constructor
      · rintro (rfl | ⟨h, h'⟩)
        · exact ⟨.inl rfl, hd⟩
        · exact ⟨.inr h, h'⟩
      · rintro ⟨rfl | h, h'⟩
        · exact .inl rfl
        · exact .inr ⟨h, h'⟩

theorem Memory.mem_insert {m : Memory} {a : Nat} {v : Byte} {c : Host.Cell} :
    c ∈ Memory.insert a v m ↔ c = (a, v) ∨ c ∈ m := by
  induction m with
  | nil => simp [Memory.insert]
  | cons d m ih =>
    by_cases hd : a < d.1
    · simp [Memory.insert, hd]
    · simp only [Memory.insert, hd, if_false, List.mem_cons, ih]; tauto

theorem Memory.read_insert (m : Memory) (a b : Nat) (v : Byte) (h : ∀ c ∈ m, c.1 ≠ a) :
    Memory.read (Memory.insert a v m) b = if b = a then v else Memory.read m b := by
  induction m with
  | nil =>
    by_cases hb : b = a
    · simp [Memory.insert, Memory.read, hb]
    · have : a ≠ b := fun e => hb e.symm
      simp [Memory.insert, Memory.read, hb, this]
  | cons d m ih =>
    have hd : d.1 ≠ a := h d (by simp)
    have ih := ih fun c hc => h c (by simp [hc])
    by_cases hb : b = a
    · subst hb
      by_cases hlt : b < d.1
      · simp [Memory.insert, hlt, Memory.read]
      · simp [Memory.insert, hlt, Memory.read, hd, ih]
    · have : a ≠ b := fun e => hb e.symm
      by_cases hlt : a < d.1
      · simp [Memory.insert, hlt, Memory.read, hb, this]
      · simp [Memory.insert, hlt, Memory.read, hb, ih]

theorem Memory.wf_nil : Memory.wf [] := by simp [Memory.wf]

theorem Memory.wf_erase {m : Memory} (h : Memory.wf m) (a : Nat) : Memory.wf (Memory.erase a m) := by
  refine ⟨?_, fun c hc => h.2 c (Memory.mem_erase.1 hc).1⟩
  have hp := h.1
  clear h
  induction m with
  | nil => simp [Memory.erase]
  | cons d m ih =>
    rw [List.pairwise_cons] at hp
    by_cases hd : d.1 = a
    · simpa [Memory.erase, hd] using ih hp.2
    · simp only [Memory.erase, hd, if_false, List.pairwise_cons]
      exact ⟨fun c hc => hp.1 c (Memory.mem_erase.1 hc).1, ih hp.2⟩

theorem Memory.wf_insert {m : Memory} (h : Memory.wf m) {a : Nat} {v : Byte} (ha : a < Config.memSize)
    (hv : v ≠ Config.unlistedByte) (hm : ∀ c ∈ m, c.1 ≠ a) : Memory.wf (Memory.insert a v m) := by
  refine ⟨?_, fun c hc => ?_⟩
  · have hp := h.1
    clear h
    induction m with
    | nil => simp [Memory.insert]
    | cons d m ih =>
      have hp' := List.pairwise_cons.1 hp
      by_cases hd : a < d.1
      · simp only [Memory.insert, hd, if_true]
        refine List.pairwise_cons.2 ⟨fun c hc => ?_, hp⟩
        rcases List.mem_cons.1 hc with rfl | hc
        · exact hd
        · exact Nat.lt_trans hd (hp'.1 c hc)
      · simp only [Memory.insert, hd, if_false]
        refine List.pairwise_cons.2 ⟨fun c hc => ?_, ih (fun c hc => hm c (by simp [hc])) hp'.2⟩
        rcases Memory.mem_insert.1 hc with rfl | hc
        · have := hm d (by simp); omega
        · exact hp'.1 c hc
  · rcases Memory.mem_insert.1 hc with rfl | hc
    · exact ⟨ha, hv⟩
    · exact h.2 c hc

/-- A store keeps the canonical form. -/
theorem Memory.wf_write {m : Memory} (h : Memory.wf m) {a : Nat} (ha : a < Config.memSize) (v : Byte) :
    Memory.wf (Memory.write a v m) := by
  unfold Memory.write
  split
  · exact Memory.wf_erase h a
  · next hv => exact Memory.wf_insert (Memory.wf_erase h a) ha hv fun c hc => (Memory.mem_erase.1 hc).2

theorem Memory.read_write_self (m : Memory) (a : Nat) (v : Byte) : Memory.read (Memory.write a v m) a = v := by
  unfold Memory.write
  split
  · next hv => simp [Memory.read_erase, hv]
  · rw [Memory.read_insert _ _ _ _ fun c hc => (Memory.mem_erase.1 hc).2]; simp

theorem Memory.read_write_ne (m : Memory) {a b : Nat} (h : b ≠ a) (v : Byte) :
    Memory.read (Memory.write a v m) b = Memory.read m b := by
  unfold Memory.write
  split
  · simp [Memory.read_erase, h]
  · rw [Memory.read_insert _ _ _ _ fun c hc => (Memory.mem_erase.1 hc).2]; simp [h, Memory.read_erase]

/-- A load of bytes inside memory keeps the canonical form. -/
theorem wf_loadBytes (vs : List Byte) : ∀ {a : Nat} {m : Memory}, Memory.wf m →
    a + vs.length ≤ Config.memSize → Memory.wf (loadBytes a vs m) := by
  induction vs with
  | nil => intro a m h _; exact h
  | cons v vs ih =>
    intro a m h hl
    simp only [List.length_cons] at hl
    exact ih (Memory.wf_write h (by omega) v) (by omega)

/-- A load changes no cell below its first address. -/
theorem read_loadBytes_lt (vs : List Byte) : ∀ {a b : Nat} {m : Memory}, b < a →
    Memory.read (loadBytes a vs m) b = Memory.read m b := by
  induction vs with
  | nil => intro a b m _; rfl
  | cons v vs ih =>
    intro a b m h
    rw [loadBytes, ih (by omega), Memory.read_write_ne _ (by omega)]

end Sys2Proof.Machine
end

