-- ==== Sys2Proof/Laws/State.lean ====
section
/-! SUPPORT. One lemma per field per update of the state, and what reading a register or a flag gives after each
update. -/

namespace Sys2Proof.Machine

variable (s : State)

@[simp] theorem writeReg_regs (i : RegIdx) (v : Byte) : (writeReg i v s).regs = s.regs.set i.val v := rfl
@[simp] theorem writeReg_flags (i : RegIdx) (v : Byte) : (writeReg i v s).flags = s.flags := rfl
@[simp] theorem writeReg_pc (i : RegIdx) (v : Byte) : (writeReg i v s).pc = s.pc := rfl
@[simp] theorem writeReg_mem (i : RegIdx) (v : Byte) : (writeReg i v s).mem = s.mem := rfl
@[simp] theorem writeReg_run (i : RegIdx) (v : Byte) : (writeReg i v s).run = s.run := rfl
@[simp] theorem writeReg_faultCause (i : RegIdx) (v : Byte) : (writeReg i v s).faultCause = s.faultCause := rfl
@[simp] theorem writeReg_out (i : RegIdx) (v : Byte) : (writeReg i v s).out = s.out := rfl

@[simp] theorem writeSp_regs (v : Byte) : (writeSp v s).regs = s.regs.set Config.spIndex.val v := rfl
@[simp] theorem writeSp_flags (v : Byte) : (writeSp v s).flags = s.flags := rfl
@[simp] theorem writeSp_pc (v : Byte) : (writeSp v s).pc = s.pc := rfl
@[simp] theorem writeSp_mem (v : Byte) : (writeSp v s).mem = s.mem := rfl
@[simp] theorem writeSp_run (v : Byte) : (writeSp v s).run = s.run := rfl
@[simp] theorem writeSp_faultCause (v : Byte) : (writeSp v s).faultCause = s.faultCause := rfl
@[simp] theorem writeSp_out (v : Byte) : (writeSp v s).out = s.out := rfl

@[simp] theorem decSp_regs : (decSp s).regs = s.regs.set Config.spIndex.val (sp s - 1) := rfl
@[simp] theorem decSp_flags : (decSp s).flags = s.flags := rfl
@[simp] theorem decSp_pc : (decSp s).pc = s.pc := rfl
@[simp] theorem decSp_mem : (decSp s).mem = s.mem := rfl
@[simp] theorem decSp_run : (decSp s).run = s.run := rfl
@[simp] theorem decSp_faultCause : (decSp s).faultCause = s.faultCause := rfl
@[simp] theorem decSp_out : (decSp s).out = s.out := rfl

@[simp] theorem incSp_regs : (incSp s).regs = s.regs.set Config.spIndex.val (sp s + 1) := rfl
@[simp] theorem incSp_flags : (incSp s).flags = s.flags := rfl
@[simp] theorem incSp_pc : (incSp s).pc = s.pc := rfl
@[simp] theorem incSp_mem : (incSp s).mem = s.mem := rfl
@[simp] theorem incSp_run : (incSp s).run = s.run := rfl
@[simp] theorem incSp_faultCause : (incSp s).faultCause = s.faultCause := rfl
@[simp] theorem incSp_out : (incSp s).out = s.out := rfl

@[simp] theorem advance_regs (w : Nat) : (advance w s).regs = s.regs := rfl
@[simp] theorem advance_flags (w : Nat) : (advance w s).flags = s.flags := rfl
@[simp] theorem advance_pc (w : Nat) : (advance w s).pc = s.pc + BitVec.ofNat 9 w := rfl
@[simp] theorem advance_mem (w : Nat) : (advance w s).mem = s.mem := rfl
@[simp] theorem advance_run (w : Nat) : (advance w s).run = s.run := rfl
@[simp] theorem advance_faultCause (w : Nat) : (advance w s).faultCause = s.faultCause := rfl
@[simp] theorem advance_out (w : Nat) : (advance w s).out = s.out := rfl

@[simp] theorem loadPc_regs (v : Byte) : (loadPc v s).regs = s.regs := rfl
@[simp] theorem loadPc_flags (v : Byte) : (loadPc v s).flags = s.flags := rfl
@[simp] theorem loadPc_pc (v : Byte) : (loadPc v s).pc = v.setWidth 9 := rfl
@[simp] theorem loadPc_mem (v : Byte) : (loadPc v s).mem = s.mem := rfl
@[simp] theorem loadPc_run (v : Byte) : (loadPc v s).run = s.run := rfl
@[simp] theorem loadPc_faultCause (v : Byte) : (loadPc v s).faultCause = s.faultCause := rfl
@[simp] theorem loadPc_out (v : Byte) : (loadPc v s).out = s.out := rfl

@[simp] theorem emit_regs (v : Byte) : (emit v s).regs = s.regs := rfl
@[simp] theorem emit_flags (v : Byte) : (emit v s).flags = s.flags := rfl
@[simp] theorem emit_pc (v : Byte) : (emit v s).pc = s.pc := rfl
@[simp] theorem emit_mem (v : Byte) : (emit v s).mem = s.mem := rfl
@[simp] theorem emit_run (v : Byte) : (emit v s).run = s.run := rfl
@[simp] theorem emit_faultCause (v : Byte) : (emit v s).faultCause = s.faultCause := rfl
@[simp] theorem emit_out (v : Byte) : (emit v s).out = s.out ++ [v] := rfl

@[simp] theorem halt_regs : (halt s).regs = s.regs := rfl
@[simp] theorem halt_flags : (halt s).flags = s.flags := rfl
@[simp] theorem halt_pc : (halt s).pc = s.pc := rfl
@[simp] theorem halt_mem : (halt s).mem = s.mem := rfl
@[simp] theorem halt_run : (halt s).run = .halted := rfl
@[simp] theorem halt_faultCause : (halt s).faultCause = s.faultCause := rfl
@[simp] theorem halt_out : (halt s).out = s.out := rfl

@[simp] theorem writeEqual_regs (b : Bool) : (writeEqual b s).regs = s.regs := rfl
@[simp] theorem writeEqual_flags (b : Bool) : (writeEqual b s).flags = s.flags.set Config.equalIndex.val b := rfl
@[simp] theorem writeEqual_pc (b : Bool) : (writeEqual b s).pc = s.pc := rfl
@[simp] theorem writeEqual_mem (b : Bool) : (writeEqual b s).mem = s.mem := rfl
@[simp] theorem writeEqual_run (b : Bool) : (writeEqual b s).run = s.run := rfl
@[simp] theorem writeEqual_faultCause (b : Bool) : (writeEqual b s).faultCause = s.faultCause := rfl
@[simp] theorem writeEqual_out (b : Bool) : (writeEqual b s).out = s.out := rfl

@[simp] theorem takeFault_regs (c : FaultCause) : (takeFault c s).regs = s.regs := rfl
@[simp] theorem takeFault_flags (c : FaultCause) : (takeFault c s).flags = s.flags := rfl
@[simp] theorem takeFault_pc (c : FaultCause) : (takeFault c s).pc = s.pc := rfl
@[simp] theorem takeFault_mem (c : FaultCause) : (takeFault c s).mem = s.mem := rfl
@[simp] theorem takeFault_run (c : FaultCause) : (takeFault c s).run = .faulted := rfl
@[simp] theorem takeFault_faultCause (c : FaultCause) : (takeFault c s).faultCause = some c := rfl
@[simp] theorem takeFault_out (c : FaultCause) : (takeFault c s).out = s.out := rfl

/-! ### Reading after writing -/

theorem readReg_writeReg (i j : RegIdx) (v : Byte) :
    readReg (writeReg i v s) j = if i = j then v else readReg s j := by
  simp [readReg, Vector.getElem_set, Fin.ext_iff]

@[simp] theorem readReg_writeReg_self (i : RegIdx) (v : Byte) : readReg (writeReg i v s) i = v := by
  simp [readReg_writeReg]

theorem readReg_writeReg_ne {i j : RegIdx} (h : i ≠ j) (v : Byte) :
    readReg (writeReg i v s) j = readReg s j := by
  simp [readReg_writeReg, h]

theorem readReg_writeSp (j : RegIdx) (v : Byte) :
    readReg (writeSp v s) j = if Config.spIndex = j then v else readReg s j := readReg_writeReg s _ j v

theorem readReg_decSp (j : RegIdx) :
    readReg (decSp s) j = if Config.spIndex = j then sp s - 1 else readReg s j := readReg_writeReg s _ j _

theorem readReg_incSp (j : RegIdx) :
    readReg (incSp s) j = if Config.spIndex = j then sp s + 1 else readReg s j := readReg_writeReg s _ j _

@[simp] theorem sp_writeSp (v : Byte) : sp (writeSp v s) = v := readReg_writeReg_self s _ v

@[simp] theorem sp_decSp : sp (decSp s) = sp s - 1 := sp_writeSp s _

@[simp] theorem sp_incSp : sp (incSp s) = sp s + 1 := sp_writeSp s _

theorem readFlag_writeEqual (k : FlagIdx) (b : Bool) :
    readFlag (writeEqual b s) k = if Config.equalIndex = k then b else readFlag s k := by
  simp [readFlag, writeEqual, Vector.getElem_set, Fin.ext_iff]

@[simp] theorem equalFlag_writeEqual (b : Bool) : equalFlag (writeEqual b s) = b := by
  simp [equalFlag, readFlag_writeEqual]

/-! ### Updates that touch no register, and updates that touch no flag -/

@[simp] theorem readFlag_writeReg (i : RegIdx) (v : Byte) (k : FlagIdx) : readFlag (writeReg i v s) k = readFlag s k := rfl
@[simp] theorem equalFlag_writeReg (i : RegIdx) (v : Byte) : equalFlag (writeReg i v s) = equalFlag s := rfl
@[simp] theorem readFlag_writeSp (v : Byte) (k : FlagIdx) : readFlag (writeSp v s) k = readFlag s k := rfl
@[simp] theorem equalFlag_writeSp (v : Byte) : equalFlag (writeSp v s) = equalFlag s := rfl
@[simp] theorem readFlag_decSp (k : FlagIdx) : readFlag (decSp s) k = readFlag s k := rfl
@[simp] theorem equalFlag_decSp : equalFlag (decSp s) = equalFlag s := rfl
@[simp] theorem readFlag_incSp (k : FlagIdx) : readFlag (incSp s) k = readFlag s k := rfl
@[simp] theorem equalFlag_incSp : equalFlag (incSp s) = equalFlag s := rfl
@[simp] theorem readReg_advance (w : Nat) (j : RegIdx) : readReg (advance w s) j = readReg s j := rfl
@[simp] theorem sp_advance (w : Nat) : sp (advance w s) = sp s := rfl
@[simp] theorem readFlag_advance (w : Nat) (k : FlagIdx) : readFlag (advance w s) k = readFlag s k := rfl
@[simp] theorem equalFlag_advance (w : Nat) : equalFlag (advance w s) = equalFlag s := rfl
@[simp] theorem readReg_loadPc (v : Byte) (j : RegIdx) : readReg (loadPc v s) j = readReg s j := rfl
@[simp] theorem sp_loadPc (v : Byte) : sp (loadPc v s) = sp s := rfl
@[simp] theorem readFlag_loadPc (v : Byte) (k : FlagIdx) : readFlag (loadPc v s) k = readFlag s k := rfl
@[simp] theorem equalFlag_loadPc (v : Byte) : equalFlag (loadPc v s) = equalFlag s := rfl
@[simp] theorem readReg_emit (v : Byte) (j : RegIdx) : readReg (emit v s) j = readReg s j := rfl
@[simp] theorem sp_emit (v : Byte) : sp (emit v s) = sp s := rfl
@[simp] theorem readFlag_emit (v : Byte) (k : FlagIdx) : readFlag (emit v s) k = readFlag s k := rfl
@[simp] theorem equalFlag_emit (v : Byte) : equalFlag (emit v s) = equalFlag s := rfl
@[simp] theorem readReg_halt (j : RegIdx) : readReg (halt s) j = readReg s j := rfl
@[simp] theorem sp_halt : sp (halt s) = sp s := rfl
@[simp] theorem readFlag_halt (k : FlagIdx) : readFlag (halt s) k = readFlag s k := rfl
@[simp] theorem equalFlag_halt : equalFlag (halt s) = equalFlag s := rfl
@[simp] theorem readReg_writeEqual (b : Bool) (j : RegIdx) : readReg (writeEqual b s) j = readReg s j := rfl
@[simp] theorem sp_writeEqual (b : Bool) : sp (writeEqual b s) = sp s := rfl
@[simp] theorem readReg_takeFault (c : FaultCause) (j : RegIdx) : readReg (takeFault c s) j = readReg s j := rfl
@[simp] theorem sp_takeFault (c : FaultCause) : sp (takeFault c s) = sp s := rfl
@[simp] theorem readFlag_takeFault (c : FaultCause) (k : FlagIdx) : readFlag (takeFault c s) k = readFlag s k := rfl
@[simp] theorem equalFlag_takeFault (c : FaultCause) : equalFlag (takeFault c s) = equalFlag s := rfl

theorem branch_eq (i : Instr) (r : RegIdx) :
    branch i r s = if taken i (equalFlag s) = true then loadPc (readReg s r) s else advance 2 s := rfl

end Sys2Proof.Machine
end

