-- ==== Sys2Proof/Laws/Ops.lean ====
section
/-! SUPPORT. For each shared operation, the lemma that says everything it can do. -/

namespace Sys2Proof.Machine

@[simp] theorem memSize_eq : Config.memSize = 256 := rfl

/-! ### The two memory primitives -/

theorem memRead_ok (s : State) {a : Nat} (h : a < 256) : memRead s a = .ok (Memory.read s.mem a) := if_pos h

theorem memRead_error (s : State) {a : Nat} (h : 256 ≤ a) : memRead s a = .error (.memoryOutOfBounds a) :=
  if_neg (Nat.not_lt.2 h)

theorem memWrite_ok (s : State) {a : Nat} (v : Byte) (h : a < 256) :
    memWrite a v s = .ok { s with mem := Memory.write a v s.mem } := if_pos h

theorem memWrite_error (s : State) {a : Nat} (v : Byte) (h : 256 ≤ a) :
    memWrite a v s = .error (.memoryOutOfBounds a) := if_neg (Nat.not_lt.2 h)

/-! ### The end of a step -/

@[simp] theorem commit_ok (s t : State) : commit s (.ok t) = .next t := rfl

@[simp] theorem commit_error (s : State) (c : FaultCause) : commit s (.error c) = .next (takeFault c s) := rfl

/-- A committed step always answers a next state: the effect, or the fault taken. -/
theorem commit_eq_next {s t : State} {r : Except FaultCause State} :
    commit s r = .next t ↔ r = .ok t ∨ ∃ c, r = .error c ∧ t = takeFault c s := by
  cases r with
  | ok u => simp
  | error c => simp [eq_comm]

/-! ### The register check -/

theorem checkReg_ok {b : Byte} (h : b.toNat < 8) : checkReg b = .ok ⟨b.toNat, h⟩ := dif_pos h

theorem checkReg_error {b : Byte} (h : 8 ≤ b.toNat) : checkReg b = .error (.registerOutOfBounds b) :=
  dif_neg (Nat.not_lt.2 h)

/-- The operand byte that names a register passes the check. -/
theorem checkReg_ofNat (r : RegIdx) : checkReg (BitVec.ofNat 8 r.val) = .ok r := by
  have h : (BitVec.ofNat 8 r.val).toNat = r.val := by
    rw [BitVec.toNat_ofNat]; exact Nat.mod_eq_of_lt (by omega)
  rw [checkReg_ok (by omega)]
  congr 1
  exact Fin.ext h

theorem withReg_ok {a : Byte} (s : State) (effect : RegIdx → Except FaultCause State) (h : a.toNat < 8) :
    withReg a s effect = commit s (effect ⟨a.toNat, h⟩) := by
  simp [withReg, checkReg_ok h, bind, Except.bind]

theorem withReg_ofNat (r : RegIdx) (s : State) (effect : RegIdx → Except FaultCause State) :
    withReg (BitVec.ofNat 8 r.val) s effect = commit s (effect r) := by
  simp [withReg, checkReg_ofNat, bind, Except.bind]

theorem withReg_error {a : Byte} (s : State) (effect : RegIdx → Except FaultCause State) (h : 8 ≤ a.toNat) :
    withReg a s effect = .next (takeFault (.registerOutOfBounds a) s) := by
  simp [withReg, checkReg_error h, bind, Except.bind]

theorem withRegs_ok {a b : Byte} (s : State) (effect : RegIdx → RegIdx → Except FaultCause State)
    (ha : a.toNat < 8) (hb : b.toNat < 8) :
    withRegs a b s effect = commit s (effect ⟨a.toNat, ha⟩ ⟨b.toNat, hb⟩) := by
  simp [withRegs, checkReg_ok ha, checkReg_ok hb, bind, Except.bind]

theorem withRegs_ofNat (p q : RegIdx) (s : State) (effect : RegIdx → RegIdx → Except FaultCause State) :
    withRegs (BitVec.ofNat 8 p.val) (BitVec.ofNat 8 q.val) s effect = commit s (effect p q) := by
  simp [withRegs, checkReg_ofNat, bind, Except.bind]

theorem withRegs_error1 {a b : Byte} (s : State) (effect : RegIdx → RegIdx → Except FaultCause State)
    (h : 8 ≤ a.toNat) : withRegs a b s effect = .next (takeFault (.registerOutOfBounds a) s) := by
  simp [withRegs, checkReg_error h, bind, Except.bind]

theorem withRegs_error2 {a b : Byte} (s : State) (effect : RegIdx → RegIdx → Except FaultCause State)
    (ha : a.toNat < 8) (h : 8 ≤ b.toNat) :
    withRegs a b s effect = .next (takeFault (.registerOutOfBounds b) s) := by
  simp [withRegs, checkReg_ok ha, checkReg_error h, bind, Except.bind]

/-! ### The stack -/

theorem pushAddr_lt (s : State) : pushAddr s < 256 := (sp s - 1).isLt

/-- A push cannot fault: SP is an 8-bit value (R53). -/
theorem pushByte_ok (value : State → Byte) (s : State) :
    pushByte value s =
      .ok { decSp s with mem := Memory.write (pushAddr s) (value (decSp s)) s.mem } :=
  memWrite_ok _ _ (pushAddr_lt s)

/-- Nor can the read of a pop. -/
theorem topOfStack_ok (s : State) : topOfStack s = .ok (Memory.read s.mem (sp s).toNat) :=
  memRead_ok s (sp s).isLt

theorem returnAddr_ok {s : State} (h : s.pc.toNat + 2 < 256) :
    returnAddr s = .ok (BitVec.ofNat 8 (s.pc.toNat + 2)) := if_pos h

theorem returnAddr_error {s : State} (h : 256 ≤ s.pc.toNat + 2) :
    returnAddr s = .error (.memoryOutOfBounds (s.pc.toNat + 2)) := if_neg (Nat.not_lt.2 h)

/-! ### The meanings on checked operands: each instruction's effect in one equation -/

theorem execLdi_eq (a : RegIdx) (v : Byte) (s : State) :
    execLdi (BitVec.ofNat 8 a.val) v s = .next (advance 3 (writeReg a v s)) := withReg_ofNat ..

theorem execPrn_eq (a : RegIdx) (s : State) :
    execPrn (BitVec.ofNat 8 a.val) s = .next (advance 2 (emit (readReg s a) s)) := withReg_ofNat ..

theorem execAdd_eq (a b : RegIdx) (s : State) :
    execAdd (BitVec.ofNat 8 a.val) (BitVec.ofNat 8 b.val) s =
      .next (advance 3 (writeReg a (aluAdd (readReg s a) (readReg s b)) s)) := withRegs_ofNat ..

theorem execMul_eq (a b : RegIdx) (s : State) :
    execMul (BitVec.ofNat 8 a.val) (BitVec.ofNat 8 b.val) s =
      .next (advance 3 (writeReg a (aluMul (readReg s a) (readReg s b)) s)) := withRegs_ofNat ..

theorem execCmp_eq (a b : RegIdx) (s : State) :
    execCmp (BitVec.ofNat 8 a.val) (BitVec.ofNat 8 b.val) s =
      .next (advance 3 (writeEqual (aluEq (readReg s a) (readReg s b)) s)) := withRegs_ofNat ..

theorem execHlt_eq (s : State) : execHlt s = .next (halt s) := rfl

theorem execPush_eq (a : RegIdx) (s : State) :
    execPush (BitVec.ofNat 8 a.val) s =
      .next (advance 2 { decSp s with mem := Memory.write (pushAddr s) (readReg (decSp s) a) s.mem }) := by
  simp [execPush, withReg_ofNat, pushByte_ok, bind, Except.bind, pure, Except.pure]

theorem execPop_eq (a : RegIdx) (s : State) :
    execPop (BitVec.ofNat 8 a.val) s =
      .next (advance 2 (incSp (writeReg a (Memory.read s.mem (sp s).toNat) s))) := by
  simp [execPop, withReg_ofNat, topOfStack_ok, bind, Except.bind, pure, Except.pure]

theorem execCall_eq (a : RegIdx) {s : State} (h : s.pc.toNat + 2 < 256) :
    execCall (BitVec.ofNat 8 a.val) s =
      .next (loadPc (readReg (decSp s) a)
        { decSp s with mem := Memory.write (pushAddr s) (BitVec.ofNat 8 (s.pc.toNat + 2)) s.mem }) := by
  simp [execCall, withReg_ofNat, pushByte_ok, returnAddr_ok h, bind, Except.bind, pure, Except.pure, branch, taken,
    readReg]

theorem execCall_error (a : RegIdx) {s : State} (h : 256 ≤ s.pc.toNat + 2) :
    execCall (BitVec.ofNat 8 a.val) s = .next (takeFault (.memoryOutOfBounds (s.pc.toNat + 2)) s) := by
  simp [execCall, withReg_ofNat, returnAddr_error h, bind, Except.bind]

theorem execRet_eq (s : State) :
    execRet s = .next (loadPc (Memory.read s.mem (sp s).toNat) (incSp s)) := by
  simp [execRet, topOfStack_ok, bind, Except.bind, pure, Except.pure]

theorem execJeq_eq (a : RegIdx) (s : State) :
    execJeq (BitVec.ofNat 8 a.val) s =
      .next (if equalFlag s then loadPc (readReg s a) s else advance 2 s) := withReg_ofNat ..

theorem execJne_eq (a : RegIdx) (s : State) :
    execJne (BitVec.ofNat 8 a.val) s =
      .next (if equalFlag s then advance 2 s else loadPc (readReg s a) s) := by
  rw [execJne, withReg_ofNat]; cases h : equalFlag s <;> simp [branch, taken, h]

theorem execJmp_eq (a : RegIdx) (s : State) :
    execJmp (BitVec.ofNat 8 a.val) s = .next (loadPc (readReg s a) s) := withReg_ofNat ..

/-- An operand byte is either a register's or out of range. -/
theorem operand_cases (b : Byte) : (∃ r : RegIdx, b = BitVec.ofNat 8 r.val) ∨ 8 ≤ b.toNat := by
  by_cases h : b.toNat < 8
  · exact .inl ⟨⟨b.toNat, h⟩, by simp⟩
  · exact .inr (Nat.not_lt.1 h)

/-! ### Steps -/

theorem step_halted {s : State} (h : s.run = .halted) : step s = .fault .alreadyHalted := by
  simp [step, h]

theorem step_faulted {s : State} (h : s.run = .faulted) : step s = .fault (.alreadyFaulted s.faultCause) := by
  simp [step, h]

theorem step_fetch_ok {s : State} {i : Instr} (h : s.run = .running) (hf : fetch s = .ok i) : step s = exec i s := by
  simp [step, h, hf]

theorem step_fetch_error {s : State} {c : FaultCause} (h : s.run = .running) (hf : fetch s = .error c) :
    step s = .next (takeFault c s) := by
  simp [step, h, hf]

/-- A step that answers a next state was taken in Running: it took the fetch's fault, or it ran the fetched
instruction. -/
theorem step_eq_next {s t : State} (h : step s = .next t) :
    s.run = .running ∧
      ((∃ c, fetch s = .error c ∧ t = takeFault c s) ∨ ∃ i, fetch s = .ok i ∧ exec i s = .next t) := by
  cases hr : s.run with
  | halted => simp [step_halted hr] at h
  | faulted => simp [step_faulted hr] at h
  | running =>
    refine ⟨rfl, ?_⟩
    cases hf : fetch s with
    | error c => rw [step_fetch_error hr hf] at h; exact .inl ⟨c, rfl, by simpa using h.symm⟩
    | ok i => rw [step_fetch_ok hr hf] at h; exact .inr ⟨i, rfl, h⟩

end Sys2Proof.Machine
end

