-- ==== Sys2Proof/Laws/PerInstr.lean ====
section
/-! SUPPORT. A fact about every instruction as syntax, one lemma a constructor: its encoding has the width of R84,
1 to 3 bytes (R80). -/

namespace Sys2Proof.Laws.EncodedWidth

def Statement (i : Instr) : Prop := (encode i).length = i.width ∧ i.width ≤ maxWidth

theorem ldi (a b : Byte) : Statement (.ldi a b) := ⟨rfl, Nat.le_of_ble_eq_true rfl⟩
theorem prn (a : Byte) : Statement (.prn a) := ⟨rfl, Nat.le_of_ble_eq_true rfl⟩
theorem add (a b : Byte) : Statement (.add a b) := ⟨rfl, Nat.le_of_ble_eq_true rfl⟩
theorem mul (a b : Byte) : Statement (.mul a b) := ⟨rfl, Nat.le_of_ble_eq_true rfl⟩
theorem cmp (a b : Byte) : Statement (.cmp a b) := ⟨rfl, Nat.le_of_ble_eq_true rfl⟩
theorem hlt : Statement .hlt := ⟨rfl, Nat.le_of_ble_eq_true rfl⟩
theorem push (a : Byte) : Statement (.push a) := ⟨rfl, Nat.le_of_ble_eq_true rfl⟩
theorem pop (a : Byte) : Statement (.pop a) := ⟨rfl, Nat.le_of_ble_eq_true rfl⟩
theorem call (a : Byte) : Statement (.call a) := ⟨rfl, Nat.le_of_ble_eq_true rfl⟩
theorem ret : Statement .ret := ⟨rfl, Nat.le_of_ble_eq_true rfl⟩
theorem jeq (a : Byte) : Statement (.jeq a) := ⟨rfl, Nat.le_of_ble_eq_true rfl⟩
theorem jne (a : Byte) : Statement (.jne a) := ⟨rfl, Nat.le_of_ble_eq_true rfl⟩
theorem jmp (a : Byte) : Statement (.jmp a) := ⟨rfl, Nat.le_of_ble_eq_true rfl⟩

end Sys2Proof.Laws.EncodedWidth
end

