-- ==== Sys2Proof/Laws/Step.lean ====
section
/-! SUPPORT. What a fetch and a step can do: the fetch by the opcode at the program counter, and the inversion of a
step that answers a next state. -/

namespace Sys2Proof.Machine

open Sys2Proof.Safety

variable {s t : State}

theorem takeFault_eq_faultedWith (c : FaultCause) (s : State) : takeFault c s = faultedWith c s := rfl

/-! ### Fetch -/

theorem memRead_byteAt {n : Nat} (h : s.pc.toNat + n < 256) :
    memRead s (s.pc.toNat + n) = .ok (byteAt s n) := memRead_ok s h

theorem memRead_beyond {n : Nat} (h : 256 ≤ s.pc.toNat + n) :
    memRead s (s.pc.toNat + n) = .error (.memoryOutOfBounds (s.pc.toNat + n)) := memRead_error s h

theorem fetch_beyond (h : 256 ≤ s.pc.toNat) : fetch s = .error (.memoryOutOfBounds s.pc.toNat) :=
  decodeFrom_error (memRead_error s h)

theorem fetch_unknown (h : s.pc.toNat < 256) (hop : ∀ i : Instr, i.opcode ≠ byteAt s 0) :
    fetch s = .error (.unrecognizedOpcode (byteAt s 0) s.pc) :=
  decodeFrom_unknown (memRead_byteAt (n := 0) h) hop

theorem read_opcode {op : Byte} (h : Fetching s op) : memRead s (s.pc.toNat + 0) = .ok op := by
  rw [memRead_byteAt (n := 0) h.2.1, h.2.2]

/-- A fetch of width 3: at 254 and 255 an operand lies beyond memory. -/
theorem fetch_three {mk : Byte → Byte → Instr}
    (h : fetch s = readAB (fun n => memRead s (s.pc.toNat + n)) mk) (hp : s.pc.toNat < 256) :
    (254 ≤ s.pc.toNat → fetch s = .error (.memoryOutOfBounds 256)) ∧
    (s.pc.toNat ≤ 253 → fetch s = .ok (mk (byteAt s 1) (byteAt s 2))) := by
  refine ⟨fun hge => ?_, fun hle => ?_⟩
  · rcases (by omega : s.pc.toNat = 255 ∨ s.pc.toNat = 254) with e | e
    · rw [h, readAB_error1 (memRead_beyond (n := 1) (by omega)), e]
    · rw [h, readAB_error2 (memRead_byteAt (n := 1) (by omega)) (memRead_beyond (n := 2) (by omega)), e]
  · rw [h, readAB_ok (memRead_byteAt (n := 1) (by omega)) (memRead_byteAt (n := 2) (by omega))]

/-- A fetch of width 2: at 255 the operand lies beyond memory. -/
theorem fetch_two {mk : Byte → Instr}
    (h : fetch s = readR (fun n => memRead s (s.pc.toNat + n)) mk) (hp : s.pc.toNat < 256) :
    (s.pc.toNat = 255 → fetch s = .error (.memoryOutOfBounds 256)) ∧
    (s.pc.toNat ≤ 254 → fetch s = .ok (mk (byteAt s 1))) := by
  refine ⟨fun e => ?_, fun hle => ?_⟩
  · rw [h, readR_error (memRead_beyond (n := 1) (by omega)), e]
  · rw [h, readR_ok (memRead_byteAt (n := 1) (by omega))]

theorem fetch_ldi (h : Fetching s 0x82) :
    (254 ≤ s.pc.toNat → fetch s = .error (.memoryOutOfBounds 256)) ∧
    (s.pc.toNat ≤ 253 → fetch s = .ok (.ldi (byteAt s 1) (byteAt s 2))) :=
  fetch_three (decodeFrom_ldi (read_opcode h)) h.2.1

theorem fetch_add (h : Fetching s 0xA0) :
    (254 ≤ s.pc.toNat → fetch s = .error (.memoryOutOfBounds 256)) ∧
    (s.pc.toNat ≤ 253 → fetch s = .ok (.add (byteAt s 1) (byteAt s 2))) :=
  fetch_three (decodeFrom_add (read_opcode h)) h.2.1

theorem fetch_mul (h : Fetching s 0xA2) :
    (254 ≤ s.pc.toNat → fetch s = .error (.memoryOutOfBounds 256)) ∧
    (s.pc.toNat ≤ 253 → fetch s = .ok (.mul (byteAt s 1) (byteAt s 2))) :=
  fetch_three (decodeFrom_mul (read_opcode h)) h.2.1

theorem fetch_cmp (h : Fetching s 0xA7) :
    (254 ≤ s.pc.toNat → fetch s = .error (.memoryOutOfBounds 256)) ∧
    (s.pc.toNat ≤ 253 → fetch s = .ok (.cmp (byteAt s 1) (byteAt s 2))) :=
  fetch_three (decodeFrom_cmp (read_opcode h)) h.2.1

theorem fetch_prn (h : Fetching s 0x47) :
    (s.pc.toNat = 255 → fetch s = .error (.memoryOutOfBounds 256)) ∧
    (s.pc.toNat ≤ 254 → fetch s = .ok (.prn (byteAt s 1))) :=
  fetch_two (decodeFrom_prn (read_opcode h)) h.2.1

theorem fetch_push (h : Fetching s 0x45) :
    (s.pc.toNat = 255 → fetch s = .error (.memoryOutOfBounds 256)) ∧
    (s.pc.toNat ≤ 254 → fetch s = .ok (.push (byteAt s 1))) :=
  fetch_two (decodeFrom_push (read_opcode h)) h.2.1

theorem fetch_pop (h : Fetching s 0x46) :
    (s.pc.toNat = 255 → fetch s = .error (.memoryOutOfBounds 256)) ∧
    (s.pc.toNat ≤ 254 → fetch s = .ok (.pop (byteAt s 1))) :=
  fetch_two (decodeFrom_pop (read_opcode h)) h.2.1

theorem fetch_call (h : Fetching s 0x50) :
    (s.pc.toNat = 255 → fetch s = .error (.memoryOutOfBounds 256)) ∧
    (s.pc.toNat ≤ 254 → fetch s = .ok (.call (byteAt s 1))) :=
  fetch_two (decodeFrom_call (read_opcode h)) h.2.1

theorem fetch_jeq (h : Fetching s 0x55) :
    (s.pc.toNat = 255 → fetch s = .error (.memoryOutOfBounds 256)) ∧
    (s.pc.toNat ≤ 254 → fetch s = .ok (.jeq (byteAt s 1))) :=
  fetch_two (decodeFrom_jeq (read_opcode h)) h.2.1

theorem fetch_jne (h : Fetching s 0x56) :
    (s.pc.toNat = 255 → fetch s = .error (.memoryOutOfBounds 256)) ∧
    (s.pc.toNat ≤ 254 → fetch s = .ok (.jne (byteAt s 1))) :=
  fetch_two (decodeFrom_jne (read_opcode h)) h.2.1

theorem fetch_jmp (h : Fetching s 0x54) :
    (s.pc.toNat = 255 → fetch s = .error (.memoryOutOfBounds 256)) ∧
    (s.pc.toNat ≤ 254 → fetch s = .ok (.jmp (byteAt s 1))) :=
  fetch_two (decodeFrom_jmp (read_opcode h)) h.2.1

theorem fetch_hlt (h : Fetching s 0x01) : fetch s = .ok .hlt := decodeFrom_hlt (read_opcode h)

theorem fetch_ret (h : Fetching s 0x11) : fetch s = .ok .ret := decodeFrom_ret (read_opcode h)

/-- What was fetched lies in memory, byte by byte, at the program counter. -/
theorem fetch_eq_ok {i : Instr} (h : fetch s = .ok i) {n : Nat} {b : Byte} (hb : (encode i)[n]? = some b) :
    s.pc.toNat + n < 256 ∧ byteAt s n = b := by
  have e : memRead s (s.pc.toNat + n) = .ok b := decodeFrom_eq_ok h n b hb
  by_cases hlt : s.pc.toNat + n < 256
  · rw [memRead_byteAt hlt] at e; exact ⟨hlt, by injection e⟩
  · rw [memRead_error s (by omega)] at e; cases e

/-- A fetched instruction's opcode is the one at the program counter. -/
theorem fetching_of_fetch {i : Instr} (hr : s.run = .running) (h : fetch s = .ok i) : Fetching s i.opcode :=
  have e := fetch_eq_ok h (n := 0) (b := i.opcode) rfl
  ⟨hr, e.1, e.2⟩

/-- A fetch that raises: beyond memory, or at an opcode that is no instruction's. -/
theorem fetch_eq_error {c : FaultCause} (hr : s.run = .running) (h : fetch s = .error c) :
    (∃ n, n ≤ 2 ∧ c = .memoryOutOfBounds (s.pc.toNat + n) ∧ 256 ≤ s.pc.toNat + n ∧
      (n = 0 ∨ s.pc.toNat + n = 256)) ∨
    (s.pc.toNat < 256 ∧ c = .unrecognizedOpcode (byteAt s 0) s.pc ∧ ∀ i : Instr, i.opcode ≠ byteAt s 0) := by
  by_cases hp : 256 ≤ s.pc.toNat
  · rw [fetch_beyond hp] at h
    exact .inl ⟨0, by omega, by injection h with h; exact h.symm, by omega, .inl rfl⟩
  rcases opcode_or_unknown (byteAt s 0) with ⟨i, hi⟩ | hn
  · have hf : Fetching s i.opcode := ⟨hr, by omega, hi.symm⟩
    have three : ∀ {mk : Byte → Byte → Instr}, ((254 ≤ s.pc.toNat → fetch s = .error (.memoryOutOfBounds 256)) ∧
        (s.pc.toNat ≤ 253 → fetch s = .ok (mk (byteAt s 1) (byteAt s 2)))) →
        ∃ n, n ≤ 2 ∧ c = .memoryOutOfBounds (s.pc.toNat + n) ∧ 256 ≤ s.pc.toNat + n ∧
          (n = 0 ∨ s.pc.toNat + n = 256) := by
      rintro mk ⟨hge, hle⟩
      by_cases h2 : 254 ≤ s.pc.toNat
      · rw [hge h2] at h
        refine ⟨256 - s.pc.toNat, by omega, ?_, by omega, .inr (by omega)⟩
        injection h with h
        rw [← h]; congr 1; omega
      · rw [hle (by omega)] at h; cases h
    have two : ∀ {mk : Byte → Instr}, ((s.pc.toNat = 255 → fetch s = .error (.memoryOutOfBounds 256)) ∧
        (s.pc.toNat ≤ 254 → fetch s = .ok (mk (byteAt s 1)))) →
        ∃ n, n ≤ 2 ∧ c = .memoryOutOfBounds (s.pc.toNat + n) ∧ 256 ≤ s.pc.toNat + n ∧
          (n = 0 ∨ s.pc.toNat + n = 256) := by
      rintro mk ⟨hge, hle⟩
      by_cases h2 : s.pc.toNat = 255
      · rw [hge h2] at h
        refine ⟨1, by omega, ?_, by omega, .inr (by omega)⟩
        injection h with h
        rw [← h, h2]
      · rw [hle (by omega)] at h; cases h
    left
    cases i with
    | ldi _ _ => exact three (fetch_ldi hf)
    | prn _ => exact two (fetch_prn hf)
    | add _ _ => exact three (fetch_add hf)
    | mul _ _ => exact three (fetch_mul hf)
    | cmp _ _ => exact three (fetch_cmp hf)
    | hlt => rw [fetch_hlt hf] at h; cases h
    | push _ => exact two (fetch_push hf)
    | pop _ => exact two (fetch_pop hf)
    | call _ => exact two (fetch_call hf)
    | ret => rw [fetch_ret hf] at h; cases h
    | jeq _ => exact two (fetch_jeq hf)
    | jne _ => exact two (fetch_jne hf)
    | jmp _ => exact two (fetch_jmp hf)
  · rw [fetch_unknown (by omega) hn] at h
    exact .inr ⟨by omega, by injection h with h; exact h.symm, hn⟩

/-! ### What a meaning can do -/

/-- Every instruction's effect on operands in range, as a relation between the state before and the state after, or
the fault it takes. -/
inductive ExecEffect (s : State) : Instr → State → Prop where
  | register {i : Instr} (b : Byte) (h : b ∈ i.regOperands) (h8 : 8 ≤ b.toNat) :
      ExecEffect s i (takeFault (.registerOutOfBounds b) s)
  | returnAddress (a : RegIdx) (h : 256 ≤ s.pc.toNat + 2) :
      ExecEffect s (.call (BitVec.ofNat 8 a.val)) (takeFault (.memoryOutOfBounds (s.pc.toNat + 2)) s)
  | ldi (a : RegIdx) (v : Byte) : ExecEffect s (.ldi (BitVec.ofNat 8 a.val) v) (advance 3 (writeReg a v s))
  | prn (a : RegIdx) : ExecEffect s (.prn (BitVec.ofNat 8 a.val)) (advance 2 (emit (readReg s a) s))
  | add (a b : RegIdx) : ExecEffect s (.add (BitVec.ofNat 8 a.val) (BitVec.ofNat 8 b.val))
      (advance 3 (writeReg a (aluAdd (readReg s a) (readReg s b)) s))
  | mul (a b : RegIdx) : ExecEffect s (.mul (BitVec.ofNat 8 a.val) (BitVec.ofNat 8 b.val))
      (advance 3 (writeReg a (aluMul (readReg s a) (readReg s b)) s))
  | cmp (a b : RegIdx) : ExecEffect s (.cmp (BitVec.ofNat 8 a.val) (BitVec.ofNat 8 b.val))
      (advance 3 (writeEqual (aluEq (readReg s a) (readReg s b)) s))
  | hlt : ExecEffect s .hlt (halt s)
  | push (a : RegIdx) : ExecEffect s (.push (BitVec.ofNat 8 a.val))
      (advance 2 { decSp s with mem := Memory.write (pushAddr s) (readReg (decSp s) a) s.mem })
  | pop (a : RegIdx) : ExecEffect s (.pop (BitVec.ofNat 8 a.val))
      (advance 2 (incSp (writeReg a (Memory.read s.mem (sp s).toNat) s)))
  | call (a : RegIdx) (h : s.pc.toNat + 2 < 256) : ExecEffect s (.call (BitVec.ofNat 8 a.val))
      (loadPc (readReg (decSp s) a)
        { decSp s with mem := Memory.write (pushAddr s) (BitVec.ofNat 8 (s.pc.toNat + 2)) s.mem })
  | ret : ExecEffect s .ret (loadPc (Memory.read s.mem (sp s).toNat) (incSp s))
  | jeq (a : RegIdx) : ExecEffect s (.jeq (BitVec.ofNat 8 a.val))
      (if equalFlag s then loadPc (readReg s a) s else advance 2 s)
  | jne (a : RegIdx) : ExecEffect s (.jne (BitVec.ofNat 8 a.val))
      (if equalFlag s then advance 2 s else loadPc (readReg s a) s)
  | jmp (a : RegIdx) : ExecEffect s (.jmp (BitVec.ofNat 8 a.val)) (loadPc (readReg s a) s)

/-- Inversion of `exec`: a meaning answers a next state, and the pair is one of `ExecEffect`'s cases. -/
theorem exec_effect (i : Instr) (s : State) : ∃ t, exec i s = .next t ∧ ExecEffect s i t := by
  have two : ∀ {a b : Byte} {f : Byte → Byte → Host.Outcome State Fault Refusal} {mk : Byte → Byte → Instr}
      {g : RegIdx → RegIdx → Except FaultCause State},
      (∀ a b, f a b = withRegs a b s g) → (∀ a b, (mk a b).regOperands = [a, b]) →
      (∀ p q : RegIdx, ∃ t, g p q = .ok t ∧ ExecEffect s (mk (BitVec.ofNat 8 p.val) (BitVec.ofNat 8 q.val)) t) →
      ∃ t, f a b = .next t ∧ ExecEffect s (mk a b) t := by
    intro a b f mk g hf hmk hg
    rcases operand_cases a with ⟨p, rfl⟩ | ha
    · rcases operand_cases b with ⟨q, rfl⟩ | hb
      · obtain ⟨t, ht, he⟩ := hg p q
        exact ⟨t, by rw [hf, withRegs_ofNat, ht, commit_ok], he⟩
      · refine ⟨_, (hf _ _).trans (withRegs_error2 s g ?_ hb), .register _ (by simp [hmk]) hb⟩
        rw [BitVec.toNat_ofNat, Nat.mod_eq_of_lt (by omega)]; exact p.isLt
    · exact ⟨_, (hf _ _).trans (withRegs_error1 s g ha), .register _ (by simp [hmk]) ha⟩
  have one : ∀ {a : Byte} {f : Byte → Host.Outcome State Fault Refusal} {mk : Byte → Instr},
      (∀ a, 8 ≤ a.toNat → f a = .next (takeFault (.registerOutOfBounds a) s)) → (∀ a, a ∈ (mk a).regOperands) →
      (∀ p : RegIdx, ∃ t, f (BitVec.ofNat 8 p.val) = .next t ∧ ExecEffect s (mk (BitVec.ofNat 8 p.val)) t) →
      ∃ t, f a = .next t ∧ ExecEffect s (mk a) t := by
    intro a f mk hf hmk hg
    rcases operand_cases a with ⟨p, rfl⟩ | ha
    · exact hg p
    · exact ⟨_, hf a ha, .register _ (hmk a) ha⟩
  cases i with
  | ldi a v =>
    exact one (f := fun a => execLdi a v s) (mk := fun a => .ldi a v) (fun _ h => withReg_error s _ h)
      (fun _ => List.mem_singleton.2 rfl) fun p => ⟨_, execLdi_eq p v s, .ldi p v⟩
  | prn a =>
    exact one (f := fun a => execPrn a s) (mk := .prn) (fun _ h => withReg_error s _ h)
      (fun _ => List.mem_singleton.2 rfl) fun p => ⟨_, execPrn_eq p s, .prn p⟩
  | add a b =>
    exact two (f := fun a b => execAdd a b s) (mk := .add) (fun _ _ => rfl) (fun _ _ => rfl)
      fun p q => ⟨_, rfl, .add p q⟩
  | mul a b =>
    exact two (f := fun a b => execMul a b s) (mk := .mul) (fun _ _ => rfl) (fun _ _ => rfl)
      fun p q => ⟨_, rfl, .mul p q⟩
  | cmp a b =>
    exact two (f := fun a b => execCmp a b s) (mk := .cmp) (fun _ _ => rfl) (fun _ _ => rfl)
      fun p q => ⟨_, rfl, .cmp p q⟩
  | hlt => exact ⟨_, execHlt_eq s, .hlt⟩
  | push a =>
    exact one (f := fun a => execPush a s) (mk := .push) (fun _ h => withReg_error s _ h)
      (fun _ => List.mem_singleton.2 rfl) fun p => ⟨_, execPush_eq p s, .push p⟩
  | pop a =>
    exact one (f := fun a => execPop a s) (mk := .pop) (fun _ h => withReg_error s _ h)
      (fun _ => List.mem_singleton.2 rfl) fun p => ⟨_, execPop_eq p s, .pop p⟩
  | call a =>
    refine one (f := fun a => execCall a s) (mk := .call) (fun _ h => withReg_error s _ h)
      (fun _ => List.mem_singleton.2 rfl) fun p => ?_
    by_cases h : s.pc.toNat + 2 < 256
    · exact ⟨_, execCall_eq p h, .call p h⟩
    · exact ⟨_, execCall_error p (Nat.not_lt.1 h), .returnAddress p (Nat.not_lt.1 h)⟩
  | ret => exact ⟨_, execRet_eq s, .ret⟩
  | jeq a =>
    exact one (f := fun a => execJeq a s) (mk := .jeq) (fun _ h => withReg_error s _ h)
      (fun _ => List.mem_singleton.2 rfl) fun p => ⟨_, execJeq_eq p s, .jeq p⟩
  | jne a =>
    exact one (f := fun a => execJne a s) (mk := .jne) (fun _ h => withReg_error s _ h)
      (fun _ => List.mem_singleton.2 rfl) fun p => ⟨_, execJne_eq p s, .jne p⟩
  | jmp a =>
    exact one (f := fun a => execJmp a s) (mk := .jmp) (fun _ h => withReg_error s _ h)
      (fun _ => List.mem_singleton.2 rfl) fun p => ⟨_, execJmp_eq p s, .jmp p⟩

/-- The same, from the answer. -/
theorem execEffect_of_exec {i : Instr} (h : exec i s = .next t) : ExecEffect s i t := by
  obtain ⟨u, hu, he⟩ := exec_effect i s
  rw [h] at hu
  injection hu with hu
  rw [hu]; exact he

/-- Inversion of a step: it was taken in Running, and it took the fetch's fault or an instruction's effect. -/
theorem step_effect (h : step s = .next t) :
    s.run = .running ∧
      ((∃ c, fetch s = .error c ∧ t = takeFault c s) ∨ ∃ i, fetch s = .ok i ∧ ExecEffect s i t) := by
  obtain ⟨hr, hc | ⟨i, hi, he⟩⟩ := step_eq_next h
  · exact ⟨hr, .inl hc⟩
  · exact ⟨hr, .inr ⟨i, hi, execEffect_of_exec he⟩⟩

end Sys2Proof.Machine
end

