-- ==== Sys2Proof/Tests/Slice0.lean ====
section
/-! SUPPORT. The model's own tests, in three parts: well-formedness and decoding; single steps, whose expected results
are the vectors of spec/95_test_vectors.md (named in each test's comment) or the examples of the instruction rules;
and, for every statement with hypotheses, a state and operands that meet all of them, each clause at the ends of its
range. -/

namespace Sys2Proof.Tests

open Sys2Proof.Machine Sys2Proof.Safety

/-- The state of spec/95_test_vectors.md's notation: reset, with `bytes` placed at `p` and the program counter there. -/
def start (p : PC) (bytes : List Byte) : State :=
  { State.reset with pc := p, mem := loadBytes p.toNat bytes [] }

/-- Registers and memory bytes listed in a vector's "before" column. -/
def withReg0 (s : State) (rs : List (RegIdx × Byte)) : State := rs.foldl (fun t r => writeReg r.1 r.2 t) s
def withMem (a : Nat) (v : Byte) (s : State) : State := { s with mem := Memory.write a v s.mem }

/-- The next state, if there is one. -/
def nextOf (o : Host.Outcome State Fault Refusal) : Option State :=
  match o with
  | .next t => some t
  | .fault _ => none
  | .refused _ => none

def regAfter (s : State) (i : RegIdx) : Option Byte := (nextOf (step s)).map fun t => readReg t i
def pcAfter (s : State) : Option Nat := (nextOf (step s)).map fun t => t.pc.toNat
def memAfter (s : State) (a : Nat) : Option Byte := (nextOf (step s)).map fun t => Memory.read t.mem a
def causeAfter (s : State) : Option (Option FaultCause) := (nextOf (step s)).map fun t => t.faultCause

/-! ### Well-formedness: an ill-formed term for each check of `WellFormed`, refused (R85, R90) -/

theorem test_illformed_opA_R :
    ∀ i ∈ [Instr.prn 8, .push 8, .pop 8, .call 8, .jeq 8, .jne 8, .jmp 255], ¬ WellFormed i := by decide

theorem test_illformed_opA_RI : ¬ WellFormed (.ldi 8 0) := by decide

theorem test_illformed_opA_RR : ∀ i ∈ [Instr.add 8 0, .mul 8 0, .cmp 8 0], ¬ WellFormed i := by decide

theorem test_illformed_opB_RR : ∀ i ∈ [Instr.add 7 8, .mul 7 8, .cmp 7 255], ¬ WellFormed i := by decide

theorem test_wellformed :
    ∀ i ∈ [Instr.ldi 7 255, .prn 7, .add 7 7, .mul 7 7, .cmp 7 7, .hlt, .push 7, .pop 7, .call 7, .ret, .jeq 7, .jne 7,
      .jmp 7], WellFormed i := by decide

/-! ### Decoding: the words of R83's table, written from its binary column; `opA` = 0x05, `opB` = 0x86 -/

theorem test_decode_load_print_halt :
    decodeTableWord 24 0b10000110_00000101_10000010 = some (.ldi 0x05 0x86) ∧
    decodeTableWord 16 0b00000101_01000111 = some (.prn 0x05) ∧
    decodeTableWord 8 0b00000001 = some .hlt := by decide

theorem test_decode_alu :
    decodeTableWord 24 0b10000110_00000101_10100000 = some (.add 0x05 0x86) ∧
    decodeTableWord 24 0b10000110_00000101_10100010 = some (.mul 0x05 0x86) ∧
    decodeTableWord 24 0b10000110_00000101_10100111 = some (.cmp 0x05 0x86) := by decide

theorem test_decode_stack :
    decodeTableWord 16 0b00000101_01000101 = some (.push 0x05) ∧
    decodeTableWord 16 0b00000101_01000110 = some (.pop 0x05) := by decide

theorem test_decode_control :
    decodeTableWord 16 0b00000101_01010000 = some (.call 0x05) ∧
    decodeTableWord 8 0b00010001 = some .ret ∧
    decodeTableWord 16 0b00000101_01010101 = some (.jeq 0x05) ∧
    decodeTableWord 16 0b00000101_01010110 = some (.jne 0x05) ∧
    decodeTableWord 16 0b00000101_01010100 = some (.jmp 0x05) := by decide

/-- The first byte of a list is the byte at the lowest address (R55); the bytes after the instruction are the rest. -/
theorem test_decode_bytes :
    decode [0x82, 0x00, 0x08, 0x47] = .ok (.ldi 0 8, [0x47]) ∧ decode [0x01, 0x47, 0x09] = .ok (.hlt, [0x47, 0x09]) ∧
    decode [0xA2, 0x00] = .error (.missingByte 2) ∧ decode [] = .error (.missingByte 0) ∧
    decode [0xC2] = .error (.unknownOpcode 0xC2) := by decide

/-- R92: `LDI R0, 8` is the bytes 0x82 0x00 0x08. -/
theorem test_encode : encode (.ldi 0 8) = [0x82, 0x00, 0x08] ∧ encode .ret = [0x11] ∧ encode (.jne 3) = [0x56, 3] := by
  decide

/-- R89: how many byte values are not opcodes. -/
theorem test_illegal_opcode_count :
    ((List.range 256).filter fun n => (decodeTableWord 8 n).isNone).length = 243 := by decide +kernel

/-! ### Single steps -/

/-- A1. -/
theorem test_ldi : regAfter (start 0 [0x82, 0x00, 0x08]) 0 = some 8 ∧ pcAfter (start 0 [0x82, 0x00, 0x08]) = some 3 := by
  decide

/-- A17: the last byte at 255, and the program counter does not wrap. -/
theorem test_ldi_at_253 : pcAfter (start 253 [0x82, 0x00, 0x05]) = some 256 := by decide

/-- A7. -/
theorem test_prn :
    (nextOf (step (withReg0 (start 0 [0x47, 0x01]) [(1, 0xFF)]))).map State.out = some [255] := by decide

/-- A11: HALT at the last address. -/
theorem test_hlt_at_255 :
    (nextOf (step (start 255 [0x01]))).map (fun t => (t.run, t.pc.toNat)) = some (.halted, 255) := by decide

/-- B2. -/
theorem test_add_wraps : regAfter (withReg0 (start 0 [0xA0, 0x00, 0x01]) [(0, 200), (1, 100)]) 0 = some 44 := by decide

/-- B7b: ADD writes no flag. -/
theorem test_add_keeps_flag :
    (nextOf (step (writeEqual true (start 0 [0xA0, 0x00, 0x01])))).map equalFlag = some true := by decide

/-- B12 and B13: the destination is the first operand. -/
theorem test_mul_wraps : regAfter (withReg0 (start 0 [0xA2, 0x00, 0x01]) [(0, 171), (1, 3)]) 0 = some 1 := by decide
theorem test_mul_destination : regAfter (withReg0 (start 0 [0xA2, 0x01, 0x00]) [(0, 171), (1, 3)]) 1 = some 1 := by decide

/-- B17. -/
theorem test_cmp_equal :
    (nextOf (step (withReg0 (start 0 [0xA7, 0x00, 0x01]) [(0, 5), (1, 5)]))).map equalFlag = some true := by decide

/-- B19: cleared, not accumulated. -/
theorem test_cmp_clears :
    (nextOf (step (writeEqual true (withReg0 (start 0 [0xA7, 0x00, 0x01]) [(0, 5), (1, 6)])))).map equalFlag =
      some false := by decide

/-- S2: from SP = 0x00 to the top of memory. -/
theorem test_push_wraps :
    memAfter (withReg0 (start 6 [0x45, 0x00]) [(0, 1)]) 0xFF = some 1 ∧
    regAfter (withReg0 (start 6 [0x45, 0x00]) [(0, 1)]) 7 = some 0xFF := by decide

/-- S5: a PUSH that overwrites its own opcode byte completes as fetched. -/
theorem test_push_over_itself :
    memAfter (withReg0 (start 40 [0x45, 0x01]) [(1, 1), (7, 0x29)]) 0x28 = some 1 ∧
    pcAfter (withReg0 (start 40 [0x45, 0x01]) [(1, 1), (7, 0x29)]) = some 42 := by decide

/-- S6. -/
theorem test_pop :
    regAfter (withMem 0xEF 0x2A (withReg0 (start 10 [0x46, 0x00]) [(7, 0xEF)])) 0 = some 0x2A ∧
    regAfter (withMem 0xEF 0x2A (withReg0 (start 10 [0x46, 0x00]) [(7, 0xEF)])) 7 = some 0xF0 := by decide

/-- S8. -/
theorem test_pop_r7 : regAfter (withMem 0x80 0x33 (withReg0 (start 10 [0x46, 0x07]) [(7, 0x80)])) 7 = some 0x34 := by
  decide

/-- T4b. -/
theorem test_jmp : pcAfter (withReg0 (start 9 [0x54, 0x01]) [(1, 0xFF)]) = some 255 := by decide

/-- T5 and T6. -/
theorem test_jeq_taken : pcAfter (writeEqual true (withReg0 (start 15 [0x55, 0x02]) [(2, 0x13)])) = some 19 := by decide
theorem test_jeq_not_taken : pcAfter (withReg0 (start 15 [0x55, 0x02]) [(2, 0x13)]) = some 17 := by decide

/-- T7 and T8. -/
theorem test_jne_taken : pcAfter (withReg0 (start 20 [0x56, 0x03]) [(3, 0x0C)]) = some 12 := by decide
theorem test_jne_not_taken : pcAfter (writeEqual true (withReg0 (start 20 [0x56, 0x03]) [(3, 0x0C)])) = some 22 := by
  decide

/-- T14. -/
theorem test_call :
    memAfter (withReg0 (start 12 [0x50, 0x02]) [(2, 0x18), (7, 0xF0)]) 0xEF = some 0x0E ∧
    pcAfter (withReg0 (start 12 [0x50, 0x02]) [(2, 0x18), (7, 0xF0)]) = some 24 := by decide

/-- T16: the target is read after the decrement. -/
theorem test_call_r7 : pcAfter (start 0 [0x50, 0x07]) = some 255 := by decide

/-- T21. -/
theorem test_ret :
    pcAfter (withMem 0xEF 0x0E (withReg0 (start 27 [0x11]) [(7, 0xEF)])) = some 14 ∧
    regAfter (withMem 0xEF 0x0E (withReg0 (start 27 [0x11]) [(7, 0xEF)])) 7 = some 0xF0 := by decide

/-- T23: RETURN at the last address pops its own opcode. -/
theorem test_ret_at_255 : pcAfter (withReg0 (start 255 [0x11]) [(7, 0xFF)]) = some 17 := by decide

/-- X2, X9, X10, B25, T9, T17, T18: one for each line of R199, in its order, where two conditions hold. -/
theorem test_fault_causes :
    causeAfter (start 256 []) = some (some (.memoryOutOfBounds 256)) ∧
    causeAfter (start 255 [0xFF]) = some (some (.unrecognizedOpcode 0xFF 255)) ∧
    causeAfter (start 255 [0x82]) = some (some (.memoryOutOfBounds 256)) ∧
    causeAfter (start 254 [0x82, 0x09]) = some (some (.memoryOutOfBounds 256)) ∧
    causeAfter (start 0 [0xA0, 0x08, 0x09]) = some (some (.registerOutOfBounds 8)) ∧
    causeAfter (start 0 [0xA0, 0x00, 0x08]) = some (some (.registerOutOfBounds 8)) ∧
    causeAfter (start 254 [0x50, 0x00]) = some (some (.memoryOutOfBounds 256)) := by decide

theorem test_fault_causes_of_jumps_and_call :
    causeAfter (start 15 [0x55, 0x09]) = some (some (.registerOutOfBounds 9)) ∧
    causeAfter (writeEqual true (start 15 [0x56, 0x09])) = some (some (.registerOutOfBounds 9)) ∧
    causeAfter (start 254 [0x50, 0x09]) = some (some (.registerOutOfBounds 9)) := by decide

/-- T17: a CALL that faults pushes nothing, and neither SP nor the program counter moves. -/
theorem test_faulting_call_is_precise :
    memAfter (withReg0 (start 254 [0x50, 0x00]) [(7, 0x80)]) 0x7F = some 0 ∧
    regAfter (withReg0 (start 254 [0x50, 0x00]) [(7, 0x80)]) 7 = some 0x80 ∧
    pcAfter (withReg0 (start 254 [0x50, 0x00]) [(7, 0x80)]) = some 254 := by decide

/-- R191: the codes. -/
theorem test_fault_codes :
    faultCode none = 0 ∧ faultCode (some (.unrecognizedOpcode 0 0)) = 1 ∧
    faultCode (some (.registerOutOfBounds 8)) = 2 ∧ faultCode (some (.memoryOutOfBounds 256)) = 3 := by decide

/-- R207: the lines `8`, `255`, `0`, `240` of A6 to A9. -/
theorem test_render :
    renderOut ['\n'] [8, 255, 0, 240] = ['8', '\n', '2', '5', '5', '\n', '0', '\n', '2', '4', '0', '\n'] := by decide

/-- P1's image: the first value is at address 0, and the first step runs it. -/
theorem test_launch :
    (launch [0x82, 0x00, 0x08, 0x47, 0x00, 0x01]).map (fun s => (Memory.read s.mem 0, Memory.read s.mem 5, regAfter s 0)) =
      some (0x82, 0x01, some 8) := by decide

/-- R223. -/
theorem test_launch_length :
    (launch (List.replicate 256 1)).isSome = true ∧ (launch (List.replicate 257 1)).isSome = false := by decide +kernel

/-- Storing the byte an unlisted address reads as removes the entry; addresses stay in order. -/
theorem test_memory_form :
    Memory.write 5 0 (Memory.write 5 1 []) = [] ∧
    Memory.write 3 7 (Memory.write 9 1 (Memory.write 1 2 [])) = [(1, 2), (3, 7), (9, 1)] := by decide

/-- The placed word is what the next step runs, at reset and at the last place that has room for three bytes. -/
theorem test_withFetchWord :
    regAfter (State.reset.withFetchWord 24 0x080082) 0 = some 8 ∧
    regAfter ((start 253 []).withFetchWord 24 0x080082) 0 = some 8 ∧
    (nextOf (step (State.reset.withFetchWord 8 0x01))).map State.run = some .halted := by decide

/-! ### Witnesses: states and operands that meet the hypotheses of the statements -/

/-- The states the clauses about terminal states speak of. -/
theorem witness_terminal :
    (halt State.reset).run ≠ .running ∧ (halt State.reset).run = .halted ∧
    (takeFault (.memoryOutOfBounds 256) State.reset).run ≠ .running ∧
    (takeFault (.memoryOutOfBounds 256) State.reset).run = .faulted := by decide

/-- ResetGivesEveryElementItsValue, LaunchPlacesTheImage, LaunchMeetsInvariant: the shortest and the longest image. -/
theorem witness_launch :
    (∃ t, launch [] = some t) ∧ (∃ t, launch (List.replicate 256 1) = some t) ∧
    (List.replicate 256 (1 : Byte)).length ≤ 256 := ⟨⟨_, rfl⟩, ⟨_, if_pos (by decide +kernel)⟩, by decide +kernel⟩

/-- CallResult, PopResult, StackFormsOnRegisterSeven: the highest CALL that completes; the byte on the stack. -/
theorem witness_call_pop_results :
    (start 253 [0x50, 0x00]).pc.toNat + 2 < 256 ∧
    (0x50 : Byte) = Memory.read (start 0 [0x50]).mem (start 0 [0x50]).regs[7].toNat := by decide

/-- Width 3: the clauses of LoadImmediateStep, AddStep, MultiplyStep and CompareStep at 255, 254 and 253, with the
operands 8, 255 and 7. -/
theorem witness_width3 : ∀ op ∈ [(0x82 : Byte), 0xA0, 0xA2, 0xA7],
    Fetching (start 255 [op]) op ∧ (start 255 [op]).pc.toNat = 255 ∧
    Fetching (start 254 [op, 8]) op ∧ (start 254 [op, 8]).pc.toNat = 254 ∧
    Fetching (start 253 [op, 8, 0]) op ∧ (start 253 [op, 8, 0]).pc.toNat ≤ 253 ∧
      8 ≤ (byteAt (start 253 [op, 8, 0]) 1).toNat ∧
    Fetching (start 0 [op, 255, 0]) op ∧ 8 ≤ (byteAt (start 0 [op, 255, 0]) 1).toNat ∧
    Fetching (start 253 [op, 7, 7]) op ∧ (7 : RegIdx).val = (byteAt (start 253 [op, 7, 7]) 1).toNat ∧
      (7 : RegIdx).val = (byteAt (start 253 [op, 7, 7]) 2).toNat ∧
    Fetching (start 253 [op, 7, 8]) op ∧ (byteAt (start 253 [op, 7, 8]) 1).toNat < 8 ∧
      8 ≤ (byteAt (start 253 [op, 7, 8]) 2).toNat := by decide

/-- Width 2: the clauses of PrintRegisterStep, PushStep, PopStep, the three jumps and CallStep at 255, 254 and 253. -/
theorem witness_width2 : ∀ op ∈ [(0x47 : Byte), 0x45, 0x46, 0x54, 0x55, 0x56, 0x50],
    Fetching (start 255 [op]) op ∧ (start 255 [op]).pc.toNat = 255 ∧
    Fetching (start 254 [op, 8]) op ∧ (start 254 [op, 8]).pc.toNat ≤ 254 ∧ 8 ≤ (byteAt (start 254 [op, 8]) 1).toNat ∧
    Fetching (start 254 [op, 255]) op ∧ 8 ≤ (byteAt (start 254 [op, 255]) 1).toNat ∧
    Fetching (start 254 [op, 7]) op ∧ (7 : RegIdx).val = (byteAt (start 254 [op, 7]) 1).toNat ∧
      (byteAt (start 254 [op, 7]) 1).toNat < 8 ∧ (start 254 [op, 7]).pc.toNat = 254 ∧
    Fetching (start 253 [op, 7]) op ∧ (start 253 [op, 7]).pc.toNat ≤ 253 ∧
      (7 : RegIdx).val = (byteAt (start 253 [op, 7]) 1).toNat := by decide

/-- PopStep: the byte read; the two conditional jumps: either value of the flag. -/
theorem witness_pop_and_flag :
    Fetching (start 0 [0x46, 0]) 0x46 ∧
      (0x46 : Byte) = Memory.read (start 0 [0x46, 0]).mem (start 0 [0x46, 0]).regs[7].toNat ∧
    ∀ op ∈ [(0x55 : Byte), 0x56],
      Fetching (start 254 [op, 7]) op ∧ (start 254 [op, 7]).flags[7] = false ∧
      Fetching (writeEqual true (start 254 [op, 7])) op ∧ (writeEqual true (start 254 [op, 7])).flags[7] = true ∧
      (byteAt (writeEqual true (start 254 [op, 7])) 1).toNat = 7 ∧
      (writeEqual true (start 254 [op, 7])).pc.toNat ≤ 254 := by decide

/-- HaltStep and ReturnStep, at both ends of memory. -/
theorem witness_width1 : ∀ op ∈ [(0x01 : Byte), 0x11],
    Fetching (start 0 [op]) op ∧ Fetching (start 255 [op]) op := by decide

/-- FaultPriority: a Running state for each line of R199, and one that owes no fault. -/
theorem witness_faultDue :
    faultDue (start 256 []) = some (.memoryOutOfBounds 256) ∧
    faultDue (start 255 [0xFF]) = some (.unrecognizedOpcode 0xFF 255) ∧
    faultDue (start 255 [0x47]) = some (.memoryOutOfBounds 256) ∧
    faultDue (start 254 [0x82, 9]) = some (.memoryOutOfBounds 256) ∧
    faultDue (start 0 [0xA0, 8, 9]) = some (.registerOutOfBounds 8) ∧
    faultDue (start 0 [0xA0, 7, 9]) = some (.registerOutOfBounds 9) ∧
    faultDue (start 254 [0x50, 7]) = some (.memoryOutOfBounds 256) ∧
    faultDue (start 254 [0x47, 7]) = none ∧ (start 254 [0x47, 7]).run = .running := by decide

/-- FaultsArePrecise, RunStateTransitions: a step into Faulted. -/
theorem witness_faulting_step : ∃ t, step State.reset = .next t ∧ t.run = .faulted := ⟨_, rfl, by decide⟩

/-- HaltStep, RunStateTransitions: a step into Halted, at the last address. -/
theorem witness_halting_step : ∃ t, step (start 255 [0x01]) = .next t ∧ t.run = .halted := ⟨_, rfl, by decide⟩

/-- RunningIsNeverStuck, RunStateTransitions: a step that stays Running. -/
theorem witness_running_step : ∃ t, step (start 254 [0x47, 7]) = .next t ∧ t.run = .running := ⟨_, rfl, by decide⟩

/-- IllegalOpcodesFault: the ends of each of the ten ranges, at both ends of memory. -/
theorem witness_illegal :
    ∀ op ∈ [(0x00 : Byte), 0x02, 0x10, 0x12, 0x44, 0x48, 0x4F, 0x51, 0x53, 0x57, 0x81, 0x83, 0x9F, 0xA1, 0xA3, 0xA6,
      0xA8, 0xFF],
      (op.toNat = 0 ∨ (0x02 ≤ op.toNat ∧ op.toNat ≤ 0x10) ∨ (0x12 ≤ op.toNat ∧ op.toNat ≤ 0x44) ∨
        (0x48 ≤ op.toNat ∧ op.toNat ≤ 0x4F) ∨ (0x51 ≤ op.toNat ∧ op.toNat ≤ 0x53) ∨
        (0x57 ≤ op.toNat ∧ op.toNat ≤ 0x81) ∨ (0x83 ≤ op.toNat ∧ op.toNat ≤ 0x9F) ∨ op.toNat = 0xA1 ∨
        (0xA3 ≤ op.toNat ∧ op.toNat ≤ 0xA6) ∨ 0xA8 ≤ op.toNat) ∧
      Fetching (start 0 [op]) op ∧ Fetching (start 255 [op]) op := by decide

/-- RegisterOperandsAreChecked: 8 and 255 in the first place, 7 and 8 in the two. -/
theorem witness_operands :
    8 ≤ (8 : Byte).toNat ∧ 8 ≤ (255 : Byte).toNat ∧ (7 : Byte).toNat < 8 := by decide

/-- EqualFlagBelongsToCompare, OtherFlagsAreInert: a step by none of COMPARE and the conditional jumps, and flags that
differ in a flag other than 7 only. -/
theorem witness_flags :
    (∃ t, step (start 0 [0x01]) = .next t) ∧ ¬ Fetching (start 0 [0x01]) 0xA7 ∧ ¬ Fetching (start 0 [0x01]) 0x55 ∧
    ¬ Fetching (start 0 [0x01]) 0x56 ∧ (0 : FlagIdx).val ≠ 7 ∧ (6 : FlagIdx).val ≠ 7 ∧
    (#v[true, true, true, true, true, true, true, false] : Vector Bool 8)[7] = (start 0 [0x01]).flags[7] :=
  ⟨⟨_, rfl⟩, by decide, by decide, by decide, by decide, by decide, by decide⟩

/-- OutputOnlyGrowsByPrint: a step that prints. -/
theorem witness_print : ∃ t, step (start 254 [0x47, 7]) = .next t ∧ t.out ≠ (start 254 [0x47, 7]).out :=
  ⟨_, rfl, by decide⟩

/-- OnlyPushAndCallStore: a step by each of the two that changes a byte. -/
theorem witness_store :
    (∃ t, step (start 0 [0x45, 7]) = .next t ∧ Memory.read t.mem 255 ≠ Memory.read (start 0 [0x45, 7]).mem 255) ∧
    ∃ t, step (start 0 [0x50, 7]) = .next t ∧ Memory.read t.mem 255 ≠ Memory.read (start 0 [0x50, 7]).mem 255 :=
  ⟨⟨_, rfl, by decide⟩, ⟨_, rfl, by decide⟩⟩

/-- RegistersWritten: a destination register, and the stack pointer. -/
theorem witness_register_written :
    (∃ t, step (start 0 [0x82, 0, 1]) = .next t ∧ readReg t 0 ≠ readReg (start 0 [0x82, 0, 1]) 0) ∧
    ∃ t, step (start 0 [0x11]) = .next t ∧ readReg t 7 ≠ readReg (start 0 [0x11]) 7 :=
  ⟨⟨_, rfl, by decide⟩, ⟨_, rfl, by decide⟩⟩

/-- ProgramCounterWrittenThreeWays: a hold, an advance to 256, a load from a register, a load from the stack; and the
program counter at 256. -/
theorem witness_pc :
    (∃ t, step (start 255 [0x01]) = .next t ∧ t.pc = 255) ∧ (∃ t, step (start 253 [0x82, 0, 5]) = .next t ∧ t.pc = 256) ∧
    (∃ t, step (start 254 [0x54, 7]) = .next t ∧ t.pc = 0) ∧ (∃ t, step (start 0 [0x11]) = .next t ∧ t.pc = 17) ∧
    (start 256 []).run = .running ∧ (start 256 []).pc = 256 ∧ (start 256 []).pc.toNat ≤ 256 :=
  ⟨⟨_, rfl, by decide⟩, ⟨_, rfl, by decide⟩, ⟨_, rfl, by decide⟩, ⟨_, rfl, by decide⟩, by decide, by decide, by decide⟩

/-- FetchReadsOnlyTheWidth: another memory that agrees on the instruction's bytes only, for each width at its last
address. -/
theorem witness_fetch :
    (fetch (start 255 [0x01]) = .ok .hlt ∧ ∀ n < 1, Memory.read [(3, 9), (255, 0x01)] (255 + n) = byteAt (start 255 [0x01]) n) ∧
    (fetch (start 254 [0x47, 7]) = .ok (.prn 7) ∧
      ∀ n < 2, Memory.read [(254, 0x47), (255, 7)] (254 + n) = byteAt (start 254 [0x47, 7]) n) ∧
    (fetch (start 253 [0xA0, 7, 7]) = .ok (.add 7 7) ∧
      ∀ n < 3, Memory.read [(0, 1), (253, 0xA0), (254, 7), (255, 7)] (253 + n) = byteAt (start 253 [0xA0, 7, 7]) n) :=
  ⟨⟨rfl, by decide⟩, ⟨rfl, by decide⟩, ⟨rfl, by decide⟩⟩

/-- PushThenPopRestores, on register 7 at the highest place. -/
theorem witness_push_pop :
    let s := start 252 [0x45, 7, 0x46, 7]
    Fetching (writeReg 7 5 s) 0x45 ∧ (writeReg 7 5 s).pc.toNat ≤ 252 ∧ (byteAt (writeReg 7 5 s) 1).toNat = (7 : RegIdx).val ∧
    byteAt (writeReg 7 5 s) 2 = 0x46 ∧ (byteAt (writeReg 7 5 s) 3).toNat = (7 : RegIdx).val ∧
    (sp (writeReg 7 5 s) - 1).toNat ≠ (writeReg 7 5 s).pc.toNat + 2 ∧
    (sp (writeReg 7 5 s) - 1).toNat ≠ (writeReg 7 5 s).pc.toNat + 3 := by decide

/-- CallThenReturnResumes, at the highest CALL: its target is the RETURN that the first step reaches. -/
theorem witness_call_return :
    let s := withMem 0 0x11 (start 253 [0x50, 0])
    Fetching s 0x50 ∧ s.pc.toNat ≤ 253 ∧ (byteAt s 1).toNat < 8 ∧
    ∃ t, step s = .next t ∧ Fetching t 0x11 ∧ sp t = sp t ∧
      Memory.read t.mem (sp t).toNat = Memory.read t.mem (sp t).toNat :=
  ⟨by decide, by decide, by decide, _, rfl, by decide, by decide, by decide⟩

/-- ConditionalJumpsAreExclusive: the pair at the highest place, with either value of the flag. -/
theorem witness_conditional_pair :
    ∀ e : Bool, let s := writeEqual e (start 252 [0x55, 7, 0x56, 7])
      Fetching s 0x55 ∧ s.pc.toNat ≤ 252 ∧ (byteAt s 1).toNat = (7 : RegIdx).val ∧ byteAt s 2 = 0x56 ∧
      (byteAt s 3).toNat = (7 : RegIdx).val ∧ equalFlag s = e := by decide

/-- FetchSeesTheStoreBeforeIt: program P8's step 3, and the highest place. -/
theorem witness_self_modifying :
    let s := withReg0 (start 6 [0x45, 0, 0x47]) [(0, 1), (7, 9)]
    let u := withReg0 (start 253 [0x45, 0]) [(7, 0)]
    (Fetching s 0x45 ∧ s.pc.toNat ≤ 253 ∧ (byteAt s 1).toNat = (0 : RegIdx).val ∧ (0 : RegIdx).val ≠ 7 ∧
      (sp s - 1).toNat = s.pc.toNat + 2 ∧ readReg s 0 = 0x01) ∧
    (Fetching u 0x45 ∧ u.pc.toNat ≤ 253 ∧ (byteAt u 1).toNat = (0 : RegIdx).val ∧
      (sp u - 1).toNat = u.pc.toNat + 2) := by decide

/-- MemoryPrimitives: the addresses 255 and 256. -/
theorem witness_addresses : 256 ≤ 256 ∧ 255 < 256 := by decide

/-- CanonicalMemoryIsUnique: two memories in the form, reached by different writes, that read alike. -/
theorem witness_canonical :
    Memory.wf (Memory.write 2 5 (Memory.write 1 4 [])) ∧ Memory.wf (Memory.write 1 4 (Memory.write 2 5 [])) ∧
    ∀ a < 256, Memory.read (Memory.write 2 5 (Memory.write 1 4 [])) a =
      Memory.read (Memory.write 1 4 (Memory.write 2 5 [])) a := by decide +kernel

/-- StepKeepsInvariant: a state that meets the invariant and takes a step, with the program counter at 256. -/
theorem witness_invariant : StateInv (start 256 []) ∧ ∃ t, step (start 256 []) = .next t :=
  ⟨⟨by decide, by decide, by decide, by decide, (fun _ h => nomatch h), (fun _ _ h => nomatch h)⟩, _, rfl⟩

/-- StepRunsTheDecodedInstruction: the three outcomes of the decoder, at the end of memory. -/
theorem witness_decode_at_pc :
    (start 253 [0xA0, 7, 7]).run = .running ∧ decode (codeAt (start 253 [0xA0, 7, 7])) = .ok (.add 7 7, []) ∧
    decode (codeAt (start 255 [0x01])) = .ok (.hlt, []) ∧
    decode (codeAt (start 256 [])) = .error (.missingByte 0) ∧
    decode (codeAt (start 255 [0x47])) = .error (.missingByte 1) ∧
    decode (codeAt (start 254 [0x82, 9])) = .error (.missingByte 2) ∧
    decode (codeAt (start 255 [0x00])) = .error (.unknownOpcode 0) := by decide

/-- PlacedWordIsTheNextInstruction. -/
theorem witness_placed :
    (start 253 []).pc.toNat ≤ 253 ∧ decodeTableWord 24 0xFF0782 = some (.ldi 7 0xFF) ∧
    decodeTableWord 8 0x11 = some .ret := by decide

/-- RegisterDestinationFrame: each form completes. -/
theorem witness_register_frame :
    (∃ t, exec (.ldi 7 255) State.reset = .next t) ∧ (∃ t, exec (.add 7 0) State.reset = .next t) ∧
    (∃ t, exec (.mul 0 7) State.reset = .next t) ∧
    WellFormed (.ldi 7 255) ∧ WellFormed (.add 7 0) ∧ WellFormed (.mul 0 7) ∧ (6 : RegIdx).val ≠ (7 : Byte).toNat :=
  ⟨⟨_, rfl⟩, ⟨_, rfl⟩, ⟨_, rfl⟩, by decide, by decide, by decide, by decide⟩

/-- NoRegisterNoStoreFrame: each form completes. -/
theorem witness_no_register_frame :
    (∃ t, exec (.prn 7) State.reset = .next t) ∧ (∃ t, exec (.cmp 0 7) State.reset = .next t) ∧
    (∃ t, exec .hlt State.reset = .next t) ∧ (∃ t, exec (.jmp 7) State.reset = .next t) ∧
    (∃ t, exec (.jeq 7) State.reset = .next t) ∧ (∃ t, exec (.jne 7) State.reset = .next t) ∧
    ∀ i ∈ [Instr.prn 7, .cmp 0 7, .hlt, .jmp 7, .jeq 7, .jne 7], WellFormed i :=
  ⟨⟨_, rfl⟩, ⟨_, rfl⟩, ⟨_, rfl⟩, ⟨_, rfl⟩, ⟨_, rfl⟩, ⟨_, rfl⟩, by decide⟩

/-- PushAndCallFrame, PopAndReturnFrame: each form completes; CALL at its highest place. -/
theorem witness_stack_frames :
    (∃ t, exec (.push 7) State.reset = .next t) ∧ (∃ t, exec (.call 7) (start 253 []) = .next t) ∧
    (∃ t, exec (.pop 7) State.reset = .next t) ∧ (∃ t, exec .ret State.reset = .next t) ∧
    (start 253 []).pc.toNat + 2 < 256 ∧ ∀ i ∈ [Instr.push 7, .call 7, .pop 7, .ret], WellFormed i :=
  ⟨⟨_, rfl⟩, ⟨_, rfl⟩, ⟨_, rfl⟩, ⟨_, rfl⟩, by decide, by decide⟩

end Sys2Proof.Tests
end

section
/-! PROOFS. The statements about the state's elements: what a step can do to each of them, and which of them it reads. -/

namespace Sys2Proof.Machine

open Sys2Proof.Safety

/-! ### What was fetched, against the bytes at the program counter -/

theorem toNat_ofNat_regIdx (a : RegIdx) : (BitVec.ofNat 8 a.val).toNat = a.val := by
  rw [BitVec.toNat_ofNat]; exact Nat.mod_eq_of_lt (by omega)

theorem length_encode (i : Instr) : (encode i).length = i.width := by cases i <;> rfl

theorem width_pos (i : Instr) : 0 < i.width := by cases i <;> exact Nat.succ_pos _

theorem fetching_of_opcode {s : State} {i : Instr} {op : Byte} (hr : s.run = .running) (hf : fetch s = .ok i)
    (h : i.opcode = op) : Fetching s op := h ▸ fetching_of_fetch hr hf

/-- The register that the first operand of a fetched instruction names is the one in the byte after the opcode. -/
theorem val_eq_byteAt_one {s : State} {i : Instr} {a : RegIdx} (hf : fetch s = .ok i)
    (h : i.operandBytes[0]? = some (BitVec.ofNat 8 a.val)) : a.val = (byteAt s 1).toNat := by
  rw [(fetch_eq_ok hf (n := 1) h).2, toNat_ofNat_regIdx]

/-- A fetched instruction lies in memory whole, so the program counter's advance past it cannot wrap (R26, R112). -/
theorem pc_add_width_le {s : State} {i : Instr} (hf : fetch s = .ok i) : s.pc.toNat + i.width ≤ 256 := by
  have hpos := width_pos i
  have hlt : i.width - 1 < (encode i).length := by rw [length_encode]; omega
  have hin := (fetch_eq_ok hf (List.getElem?_eq_getElem hlt)).1
  omega

theorem fetch_congr {s u : State} (hpc : u.pc = s.pc) (hmem : u.mem = s.mem) : fetch u = fetch s := by
  simp only [fetch, memRead, hpc, hmem]

/-- The opcodes listed by width are opcodes of instructions. -/
theorem exists_opcode_of_mem {op : Byte} (h : op ∈ opcodes1 ++ opcodes2 ++ opcodes3) : ∃ i : Instr, i.opcode = op := by
  have e : opcodes1 ++ opcodes2 ++ opcodes3 =
      [Instr.hlt, .ret, .prn 0, .push 0, .pop 0, .call 0, .jeq 0, .jne 0, .jmp 0,
        .ldi 0 0, .add 0 0, .mul 0 0, .cmp 0 0].map Instr.opcode := rfl
  rw [e] at h
  obtain ⟨i, -, hi⟩ := List.mem_map.1 h
  exact ⟨i, hi⟩

/-! ### What a step can do to one element of the state -/

section
variable {s t : State} {i : Instr}

theorem ExecEffect.flags_cases (h : ExecEffect s i t) :
    t.flags = s.flags ∨ i.opcode = 0xA7 ∧ ∃ e, t.flags = s.flags.set 7 e := by
  cases h with
  | cmp a b => exact .inr ⟨rfl, _, rfl⟩
  | jeq a | jne a => left; split <;> rfl
  | _ => exact .inl rfl

/-- R29, R30: a step leaves the flags as they were, or is on COMPARE's opcode and writes flag 7. -/
theorem step_flags_cases (h : step s = .next t) :
    t.flags = s.flags ∨ Fetching s 0xA7 ∧ ∃ e, t.flags = s.flags.set 7 e := by
  obtain ⟨hr, ⟨c, -, rfl⟩ | ⟨i, hf, he⟩⟩ := step_effect h
  · exact .inl rfl
  · exact he.flags_cases.imp_right fun ⟨hop, hfl⟩ => ⟨fetching_of_opcode hr hf hop, hfl⟩

/-- R30. -/
theorem readFlag_of_step {k : FlagIdx} (hk : k.val ≠ 7) (h : step s = .next t) : readFlag t k = readFlag s k := by
  obtain hfl | ⟨-, e, hfl⟩ := step_flags_cases h
  · simp [readFlag, hfl]
  · simp [readFlag, hfl, hk.symm]

theorem ExecEffect.out_cases (h : ExecEffect s i t) :
    t.out = s.out ∨ ∃ a : RegIdx, i = .prn (BitVec.ofNat 8 a.val) ∧ t.out = s.out ++ [readReg s a] := by
  cases h with
  | prn a => exact .inr ⟨a, rfl, rfl⟩
  | jeq a | jne a => left; split <;> rfl
  | _ => exact .inl rfl

/-- R33, R141. -/
theorem step_out_cases (h : step s = .next t) :
    t.out = s.out ∨
      Fetching s 0x47 ∧ ∃ a : RegIdx, a.val = (byteAt s 1).toNat ∧ t.out = s.out ++ [readReg s a] := by
  obtain ⟨hr, ⟨c, -, rfl⟩ | ⟨i, hf, he⟩⟩ := step_effect h
  · exact .inl rfl
  · obtain hout | ⟨a, rfl, hout⟩ := he.out_cases
    · exact .inl hout
    · exact .inr ⟨fetching_of_opcode hr hf rfl, a, val_eq_byteAt_one hf rfl, hout⟩

theorem ExecEffect.mem_cases (h : ExecEffect s i t) :
    t.mem = s.mem ∨ ∃ v, t.mem = Memory.write (pushAddr s) v s.mem := by
  cases h with
  | push a | call a _ => exact .inr ⟨_, rfl⟩
  | jeq a | jne a => left; split <;> rfl
  | _ => exact .inl rfl

/-- Every step keeps memory in its canonical form: a store goes through `Memory.write`, below `MEM_SIZE`. -/
theorem step_mem_wf (hm : Memory.wf s.mem) (h : step s = .next t) : Memory.wf t.mem := by
  obtain ⟨-, ⟨c, -, rfl⟩ | ⟨i, -, he⟩⟩ := step_effect h
  · exact hm
  · obtain e | ⟨v, e⟩ := he.mem_cases
    · rwa [e]
    · rw [e]; exact Memory.wf_write hm (pushAddr_lt s) v

theorem eq_of_readReg_writeReg_ne {a j : RegIdx} {v : Byte} (h : readReg (writeReg a v s) j ≠ readReg s j) :
    a = j := by
  by_contra hne
  exact h (readReg_writeReg_ne s hne v)

/-- R23, by the instruction: a register that differs is the destination or the stack pointer. -/
theorem ExecEffect.register_written {j : RegIdx} (h : ExecEffect s i t) (hj : readReg t j ≠ readReg s j) :
    ((i.opcode = 0x82 ∨ i.opcode = 0xA0 ∨ i.opcode = 0xA2 ∨ i.opcode = 0x46) ∧
      i.operandBytes[0]? = some (BitVec.ofNat 8 j.val)) ∨
    ((i.opcode = 0x45 ∨ i.opcode = 0x46 ∨ i.opcode = 0x50 ∨ i.opcode = 0x11) ∧ j = Config.spIndex) := by
  cases h with
  | ldi a _ | add a _ | mul a _ =>
    obtain rfl := eq_of_readReg_writeReg_ne hj
    simp [Instr.opcode, Instr.operandBytes]
  | push | call | ret =>
    obtain rfl := eq_of_readReg_writeReg_ne hj
    simp [Instr.opcode]
  | pop a =>
    by_cases hsp : j = Config.spIndex
    · simp [hsp, Instr.opcode]
    · rw [readReg_advance, readReg_incSp, if_neg (Ne.symm hsp)] at hj
      obtain rfl := eq_of_readReg_writeReg_ne hj
      simp [Instr.opcode, Instr.operandBytes]
  | jeq a | jne a => split at hj <;> exact absurd rfl hj
  | _ => exact absurd rfl hj

/-! ### The program counter -/

/-- R26, by the instruction: held, advanced by its width, loaded from its target register when taken (R118), or loaded
from the stack. -/
theorem ExecEffect.pc_cases (h : ExecEffect s i t) :
    t.pc = s.pc ∨
    ((i.width = 2 ∨ i.width = 3) ∧ t.pc = s.pc + BitVec.ofNat 9 i.width) ∨
    (taken i (equalFlag s) = true ∧ ∃ a : RegIdx, i.operandBytes[0]? = some (BitVec.ofNat 8 a.val) ∧
      t.pc = (readReg t a).setWidth 9) ∨
    (i.opcode = 0x11 ∧ t.pc = (Memory.read s.mem (sp s).toNat).setWidth 9) := by
  cases h with
  | register | returnAddress | hlt => exact .inl rfl
  | ldi | add | mul | cmp => exact .inr (.inl ⟨.inr rfl, rfl⟩)
  | prn | push | pop => exact .inr (.inl ⟨.inl rfl, rfl⟩)
  | call a _ | jmp a => exact .inr (.inr (.inl ⟨rfl, a, rfl, rfl⟩))
  | ret => exact .inr (.inr (.inr ⟨rfl, rfl⟩))
  | jeq a =>
    split
    · next he => exact .inr (.inr (.inl ⟨he, a, rfl, rfl⟩))
    · exact .inr (.inl ⟨.inl rfl, rfl⟩)
  | jne a =>
    split
    · exact .inr (.inl ⟨.inl rfl, rfl⟩)
    · next he => exact .inr (.inr (.inl ⟨by simp [taken, he], a, rfl, rfl⟩))

theorem opcode_of_taken {e : Bool} (h : taken i e = true) :
    i.opcode = 0x54 ∨ i.opcode = 0x50 ∨ (i.opcode = 0x55 ∧ e = true) ∨ (i.opcode = 0x56 ∧ e = false) := by
  cases i with
  | jmp a => exact .inl rfl
  | call a => exact .inr (.inl rfl)
  | jeq a => exact .inr (.inr (.inl ⟨rfl, h⟩))
  | jne a => exact .inr (.inr (.inr ⟨rfl, by simpa [taken] using h⟩))
  | _ => cases h

theorem toNat_setWidth_nine (v : Byte) : (v.setWidth 9).toNat = v.toNat :=
  BitVec.toNat_setWidth_of_le (by decide)

/-- The advance past a fetched instruction is exact. -/
theorem toNat_pc_advance (hf : fetch s = .ok i) :
    (s.pc + BitVec.ofNat 9 i.width).toNat = s.pc.toNat + i.width := by
  have := pc_add_width_le hf
  rw [BitVec.toNat_add, BitVec.toNat_ofNat]
  omega

/-- R26: the four ways a step can leave the program counter. -/
theorem step_pc_cases (h : step s = .next t) :
    t.pc = s.pc ∨
    (∃ i, fetch s = .ok i ∧ (i.width = 2 ∨ i.width = 3) ∧ t.pc.toNat = s.pc.toNat + i.width) ∨
    ((Fetching s 0x54 ∨ Fetching s 0x50 ∨ (Fetching s 0x55 ∧ equalFlag s = true) ∨
        (Fetching s 0x56 ∧ equalFlag s = false)) ∧
      ∃ a : RegIdx, a.val = (byteAt s 1).toNat ∧ t.pc.toNat = (readReg t a).toNat) ∨
    (Fetching s 0x11 ∧ t.pc.toNat = (Memory.read s.mem (sp s).toNat).toNat) := by
  obtain ⟨hr, ⟨c, -, rfl⟩ | ⟨i, hf, he⟩⟩ := step_effect h
  · exact .inl rfl
  have fetching : ∀ {op}, i.opcode = op → Fetching s op := fetching_of_opcode hr hf
  obtain hpc | ⟨hw, hpc⟩ | ⟨htaken, a, ha, hpc⟩ | ⟨hop, hpc⟩ := he.pc_cases
  · exact .inl hpc
  · exact .inr (.inl ⟨i, hf, hw, by rw [hpc, toNat_pc_advance hf]⟩)
  · exact .inr (.inr (.inl ⟨(opcode_of_taken htaken).imp fetching (.imp fetching (.imp (.imp_left fetching)
      (.imp_left fetching))), a, val_eq_byteAt_one hf ha, by rw [hpc, toNat_setWidth_nine]⟩))
  · exact .inr (.inr (.inr ⟨fetching hop, by rw [hpc, toNat_setWidth_nine]⟩))

theorem step_pc_le (hle : s.pc.toNat ≤ 256) (h : step s = .next t) : t.pc.toNat ≤ 256 := by
  obtain hpc | ⟨i, hf, -, hpc⟩ | ⟨-, a, -, hpc⟩ | ⟨-, hpc⟩ := step_pc_cases h
  · rwa [hpc]
  · rw [hpc]; exact pc_add_width_le hf
  · rw [hpc]; exact (readReg t a).isLt.le
  · rw [hpc]; exact (Memory.read s.mem (sp s).toNat).isLt.le

/-! ### The faults a step takes -/

/-- What the invariant asks of a cause recorded in `s`: its information is legal, and a recorded opcode is the byte at
the recorded address, the program counter. -/
def CauseFits (s : State) (c : FaultCause) : Prop :=
  CauseLegal c ∧ ∀ op p, c = .unrecognizedOpcode op p → p = s.pc ∧ byteAt s 0 = op

theorem causeFits_of_fetch {c : FaultCause} (hr : s.run = .running) (hle : s.pc.toNat ≤ 256)
    (h : fetch s = .error c) : CauseFits s c := by
  obtain ⟨n, -, rfl, hge, hn⟩ | ⟨-, rfl, hop⟩ := fetch_eq_error hr h
  · refine ⟨?_, fun _ _ e => by cases e⟩
    change s.pc.toNat + n = 256
    omega
  · refine ⟨fun hmem => ?_, fun op p e => ?_⟩
    · obtain ⟨i, hi⟩ := exists_opcode_of_mem hmem
      exact hop i hi
    · injection e with hop hpc
      exact ⟨hpc.symm, hop⟩

/-- An instruction takes a fault whose cause fits, or it completes: not Faulted, and the recorded cause as before. -/
theorem ExecEffect.fault_cases (hr : s.run = .running) (hf : fetch s = .ok i) (h : ExecEffect s i t) :
    (∃ c, CauseFits s c ∧ t = takeFault c s) ∨ (t.run ≠ .faulted ∧ t.faultCause = s.faultCause) := by
  have running : s.run ≠ .faulted := by simp [hr]
  cases h with
  | register b _ h8 => exact .inl ⟨.registerOutOfBounds b, ⟨h8, fun _ _ e => by cases e⟩, rfl⟩
  | returnAddress a hge =>
    refine .inl ⟨.memoryOutOfBounds _, ⟨?_, fun _ _ e => by cases e⟩, rfl⟩
    exact le_antisymm (pc_add_width_le hf) hge
  | hlt => exact .inr ⟨by simp, rfl⟩
  | jeq a | jne a => right; split <;> exact ⟨running, rfl⟩
  | _ => exact .inr ⟨running, rfl⟩

theorem step_fault_cases (hle : s.pc.toNat ≤ 256) (h : step s = .next t) :
    (∃ c, CauseFits s c ∧ t = takeFault c s) ∨ (t.run ≠ .faulted ∧ t.faultCause = s.faultCause) := by
  obtain ⟨hr, ⟨c, hf, rfl⟩ | ⟨i, hf, he⟩⟩ := step_effect h
  · exact .inl ⟨c, causeFits_of_fetch hr hle hf, rfl⟩
  · exact he.fault_cases hr hf

end

/-- Settles O50: each conjunct by the lemma that says what a step can do to its element. -/
theorem stepKeepsInvariant : Obligations.StepKeepsInvariant := by
  intro s t inv h
  have none_before : s.faultCause = none := inv.cause_iff.2 (by simp [(step_effect h).1])
  have pc_le := step_pc_le inv.pc_le h
  have mem_wf := step_mem_wf inv.mem_wf h
  have flags_zero : ∀ k : FlagIdx, k ≠ Config.equalIndex → readFlag t k = false := fun k hk => by
    rw [readFlag_of_step (Fin.val_ne_of_ne hk) h, inv.flags_zero k hk]
  obtain ⟨c, ⟨legal, fits⟩, rfl⟩ | ⟨hrun, hcause⟩ := step_fault_cases inv.pc_le h
  · refine ⟨pc_le, mem_wf, flags_zero, by simp, fun c' e => ?_, fun op p e => ?_⟩
    · obtain rfl : c = c' := by simpa using e
      exact legal
    · exact fits op p (by simpa using e)
  · rw [none_before] at hcause
    exact ⟨pc_le, mem_wf, flags_zero, by simp [hcause, hrun], by simp [hcause], by simp [hcause]⟩

/-! ### Runs that differ in the flags and in what was printed before -/

/-- The first register operand out of range: the one whose fault is taken (R114). -/
def firstBadOperand (i : Instr) : Option Byte := i.regOperands.find? fun b => 8 ≤ b.toNat

theorem toNat_lt_of_firstBadOperand_none {i : Instr} (h : firstBadOperand i = none) {b : Byte}
    (hb : b ∈ i.regOperands) : b.toNat < 8 := by
  simpa using List.find?_eq_none.1 h b hb

theorem withReg_of_find {a b : Byte} (s : State) (effect : RegIdx → Except FaultCause State)
    (h : [a].find? (fun b => 8 ≤ b.toNat) = some b) :
    withReg a s effect = .next (takeFault (.registerOutOfBounds b) s) := by
  obtain ⟨h8, rfl⟩ : 8 ≤ a.toNat ∧ a = b := by simpa using h
  exact withReg_error s effect h8

theorem withRegs_of_find {a a' b : Byte} (s : State) (effect : RegIdx → RegIdx → Except FaultCause State)
    (h : [a, a'].find? (fun b => 8 ≤ b.toNat) = some b) :
    withRegs a a' s effect = .next (takeFault (.registerOutOfBounds b) s) := by
  by_cases ha : 8 ≤ a.toNat
  · obtain rfl : a = b := by simpa [ha] using h
    exact withRegs_error1 s effect ha
  · rw [List.find?_cons_of_neg (by simpa using ha)] at h
    obtain ⟨h8, rfl⟩ : 8 ≤ a'.toNat ∧ a' = b := by simpa using h
    exact withRegs_error2 s effect (Nat.not_le.1 ha) h8

/-- R114: an instruction with a register operand out of range does the same in every state: it faults with the first
such operand. -/
theorem exec_of_firstBadOperand {i : Instr} {b : Byte} (h : firstBadOperand i = some b) (s : State) :
    exec i s = .next (takeFault (.registerOutOfBounds b) s) := by
  cases i with
  | add | mul | cmp => exact withRegs_of_find s _ h
  | hlt | ret => cases h
  | _ => exact withReg_of_find s _ h

/-- `s` with the flags `f` and with `pre` printed before its output. -/
def twin (f : Vector Bool 8) (pre : List Byte) (s : State) : State := { s with flags := f, out := pre ++ s.out }

/-- Two flag sequences become two others by the same write: none, or one of flag 7. -/
inductive SameFlagWrite (f f' : Vector Bool 8) : Vector Bool 8 → Vector Bool 8 → Prop where
  | kept : SameFlagWrite f f' f f'
  | equal (e : Bool) : SameFlagWrite f f' (f.set 7 e) (f'.set 7 e)

theorem SameFlagWrite.eq {f g g' : Vector Bool 8} (h : SameFlagWrite f f g g') : g' = g := by
  cases h <;> rfl

theorem SameFlagWrite.equalFlag_eq {f f' g g' : Vector Bool 8} (h : SameFlagWrite f f' g g') (hE : f'[7] = f[7]) :
    g'[7] = g[7] := by
  cases h with
  | kept => exact hE
  | equal e => simp

section
variable {s t : State} (f : Vector Bool 8) (pre : List Byte)

theorem exec_twin {i : Instr} (hE : i.opcode = 0x55 ∨ i.opcode = 0x56 → f[7] = s.flags[7]) (h : exec i s = .next t) :
    ∃ g, exec i (twin f pre s) = .next (twin g pre t) ∧ SameFlagWrite s.flags f t.flags g := by
  cases hbad : firstBadOperand i with
  | some b =>
    obtain rfl : takeFault (.registerOutOfBounds b) s = t := by simpa [exec_of_firstBadOperand hbad] using h
    exact ⟨f, exec_of_firstBadOperand hbad _, .kept⟩
  | none =>
    cases execEffect_of_exec h with
    | register b hb h8 => exact absurd (toNat_lt_of_firstBadOperand_none hbad hb) (Nat.not_lt.2 h8)
    | returnAddress a hge => exact ⟨f, execCall_error a hge, .kept⟩
    | ldi a v => exact ⟨f, execLdi_eq a v _, .kept⟩
    | prn a =>
      refine ⟨f, (execPrn_eq a _).trans ?_, .kept⟩
      simp [twin, advance, emit, readReg]
    | add a b => exact ⟨f, execAdd_eq a b _, .kept⟩
    | mul a b => exact ⟨f, execMul_eq a b _, .kept⟩
    | cmp a b => exact ⟨_, execCmp_eq a b _, .equal _⟩
    | hlt => exact ⟨f, execHlt_eq _, .kept⟩
    | push a => exact ⟨f, execPush_eq a _, .kept⟩
    | pop a => exact ⟨f, execPop_eq a _, .kept⟩
    | call a hlt => exact ⟨f, execCall_eq a hlt, .kept⟩
    | ret => exact ⟨f, execRet_eq _, .kept⟩
    | jmp a => exact ⟨f, execJmp_eq a _, .kept⟩
    | jeq a =>
      have same_E : equalFlag (twin f pre s) = equalFlag s := hE (.inl rfl)
      refine ⟨f, (execJeq_eq a _).trans ?_, ?_⟩
      · rw [same_E]; split <;> rfl
      · split <;> exact .kept
    | jne a =>
      have same_E : equalFlag (twin f pre s) = equalFlag s := hE (.inr rfl)
      refine ⟨f, (execJne_eq a _).trans ?_, ?_⟩
      · rw [same_E]; split <;> rfl
      · split <;> exact .kept

/-- R29, R30, R33: a step does the same with other flags and another earlier output, if E is the same wherever a
conditional jump asks for it. -/
theorem step_twin (hE : Fetching s 0x55 ∨ Fetching s 0x56 → f[7] = s.flags[7]) (h : step s = .next t) :
    ∃ g, step (twin f pre s) = .next (twin g pre t) ∧ SameFlagWrite s.flags f t.flags g := by
  have same_fetch : fetch (twin f pre s) = fetch s := fetch_congr rfl rfl
  obtain ⟨hr, ⟨c, hf, rfl⟩ | ⟨i, hf, hx⟩⟩ := step_eq_next h
  · exact ⟨f, step_fetch_error hr (same_fetch.trans hf), .kept⟩
  · rw [step_fetch_ok (s := twin f pre s) hr (same_fetch.trans hf)]
    exact exec_twin f pre (fun hop => hE (hop.imp (fetching_of_opcode hr hf) (fetching_of_opcode hr hf))) hx

end

/-- Settles O33: `step_flags_cases` for the writer, `step_twin` for the readers. -/
theorem equalFlagBelongsToCompare : Obligations.EqualFlagBelongsToCompare := by
  refine ⟨rfl, fun s t h hn => ?_, fun a b s => ⟨_, execCmp_eq a b s, ?_⟩, fun s t e h hjeq hjne => ?_⟩
  · obtain hfl | ⟨hf, -⟩ := step_flags_cases h
    · simp [equalFlag, readFlag, hfl]
    · exact absurd hf hn
  · simp [aluEq]
  · have no_jump : Fetching s 0x55 ∨ Fetching s 0x56 → (s.flags.set 7 e)[7] = s.flags[7] :=
      fun hj => (hj.elim hjeq hjne).elim
    obtain ⟨g, hg, -⟩ := step_twin (s.flags.set 7 e) [] no_jump h
    exact ⟨_, hg, rfl⟩

/-- Settles O34, by `readFlag_of_step` and `step_twin`. -/
theorem otherFlagsAreInert : Obligations.OtherFlagsAreInert := by
  refine ⟨by decide, fun s t k hk h => readFlag_of_step hk h, fun s t f hE h => ?_⟩
  obtain ⟨g, hg, hw⟩ := step_twin f [] (fun _ => hE) h
  exact ⟨_, hg, hw.equalFlag_eq hE, rfl⟩

/-- Settles O35, by `step_out_cases` and `step_twin`. -/
theorem outputOnlyGrowsByPrint : Obligations.OutputOnlyGrowsByPrint := by
  refine ⟨rfl, fun s t h => step_out_cases h, fun s t pre h => ?_⟩
  obtain ⟨g, hg, hw⟩ := step_twin s.flags pre (fun _ => rfl) h
  obtain rfl := hw.eq
  exact hg

/-- Settles O38, by the instruction whose effect the step had. -/
theorem registersWritten : Obligations.RegistersWritten := by
  intro s t j h hj
  obtain ⟨hr, ⟨c, -, rfl⟩ | ⟨i, hf, he⟩⟩ := step_effect h
  · exact absurd rfl hj
  have fetching : ∀ {op}, i.opcode = op → Fetching s op := fetching_of_opcode hr hf
  obtain ⟨hop, ha⟩ | ⟨hop, hsp⟩ := he.register_written hj
  · exact .inl ⟨hop.imp fetching (.imp fetching (.imp fetching fetching)), val_eq_byteAt_one hf ha⟩
  · exact .inr ⟨hop.imp fetching (.imp fetching (.imp fetching fetching)), congrArg Fin.val hsp⟩

/-- Settles O39, by `step_pc_le` and `step_pc_cases`; at 256 the opcode fetch faults. -/
theorem programCounterWrittenThreeWays : Obligations.ProgramCounterWrittenThreeWays := by
  refine ⟨fun s t hle h => ⟨step_pc_le hle h, step_pc_cases h⟩, fun s hr hpc => ?_⟩
  have hnat : s.pc.toNat = 256 := by rw [hpc]; rfl
  rw [step_fetch_error hr (fetch_beyond hnat.ge), hnat, takeFault_eq_faultedWith]

/-- Settles O1: reset by evaluation, the terminal states by `step_effect`. -/
theorem resetGivesEveryElementItsValue : Obligations.ResetGivesEveryElementItsValue := by
  refine ⟨by decide, by decide, rfl, fun _ _ => rfl, rfl, rfl, rfl, fun _ => rfl, fun s t hr h => ?_,
    fun image t h => ?_⟩
  · exact hr (step_effect h).1
  · unfold launch at h
    split at h <;> cases h
    rfl

/-- Settles O48, by evaluation. -/
theorem resetMeetsInvariant : Obligations.ResetMeetsInvariant where
  pc_le := by decide
  mem_wf := Memory.wf_nil
  flags_zero := by decide
  cause_iff := by decide
  cause_legal _ h := by cases h
  cause_true _ _ h := by cases h

end Sys2Proof.Machine
end

section
/-! PROOFS. Encoding: decoding a list of bytes against `encode`. -/

namespace Sys2Proof

theorem byteOf_eq_ok {bs : List Byte} {n : Nat} {b : Byte} : byteOf bs n = .ok b ↔ bs[n]? = some b := by
  unfold byteOf
  split <;> simp [*]

theorem decodeFrom_byteOf {bs : List Byte} {i : Instr} :
    decodeFrom (byteOf bs) Reject.unknownOpcode = .ok i ↔ encode i <+: bs := by
  rw [List.prefix_iff_getElem?]
  constructor
  · exact fun h n hn => byteOf_eq_ok.1 (decodeFrom_eq_ok h n _ (List.getElem?_eq_getElem hn))
  · intro h
    refine decodeFrom_of_bytes fun n b hb => byteOf_eq_ok.2 ?_
    obtain ⟨hn, rfl⟩ := List.getElem?_eq_some_iff.1 hb
    exact h n hn

theorem decode_eq_ok {bs : List Byte} {i : Instr} {rest : List Byte} :
    decode bs = .ok (i, rest) ↔
      decodeFrom (byteOf bs) Reject.unknownOpcode = .ok i ∧ bs.drop i.width = rest := by
  unfold decode
  cases decodeFrom (byteOf bs) Reject.unknownOpcode with
  | error r => simp
  | ok j =>
    simp only [Except.ok.injEq, Prod.mk.injEq]
    constructor <;> (rintro ⟨rfl, h⟩; exact ⟨rfl, h⟩)

/-- Settles O51: decoding succeeds on an encoding at the head of the list, and `width` is that encoding's length. -/
theorem decodeInvertsEncode : Obligations.DecodeInvertsEncode := by
  intro bs i rest
  rw [decode_eq_ok, decodeFrom_byteOf, ← Machine.length_encode]
  constructor
  · rintro ⟨hprefix, rfl⟩
    exact List.prefix_append_drop hprefix
  · rintro rfl
    exact ⟨List.prefix_append .., List.drop_left⟩

end Sys2Proof
end

section
/-! PROOFS. Memory: the primitives, the canonical form, and which steps store. -/

namespace Sys2Proof.Machine

open Sys2Proof.Safety

/-! ### The primitives and the canonical form -/

/-- Settles O46, by the equations of the two primitives and the two laws of reading after a write. -/
theorem memoryPrimitives : Obligations.MemoryPrimitives := by
  refine fun s a v => ⟨fun h => ⟨memRead_error s h, memWrite_error s v h⟩, fun h =>
    ⟨memRead_ok s h, _, memWrite_ok s v h, rfl, ?_, fun b hb => ?_⟩⟩
  · rw [memRead_ok _ h, Memory.read_write_self]
  · simp only [memRead, Memory.read_write_ne _ hb]

theorem Memory.read_of_mem {m : Memory} (hm : m.Pairwise (fun c d => c.1 < d.1)) {c : Host.Cell} (hc : c ∈ m) :
    Memory.read m c.1 = c.2 := by
  induction hm with
  | nil => cases hc
  | @cons d m hd _ ih =>
    rcases List.mem_cons.1 hc with rfl | hc
    · simp [Memory.read]
    · simp [Memory.read, (hd c hc).ne, ih hc]

theorem Memory.mem_of_read_ne {m : Memory} {a : Nat} (h : Memory.read m a ≠ Config.unlistedByte) :
    (a, Memory.read m a) ∈ m := by
  induction m with
  | nil => exact absurd rfl h
  | cons d m ih =>
    by_cases hd : d.1 = a
    · subst hd; simp [Memory.read]
    · simp only [Memory.read, hd, if_false] at h ⊢
      exact List.mem_cons_of_mem _ (ih h)

/-- The cells of a memory in canonical form are those that read as something other than the reset content. -/
theorem Memory.mem_iff_read {m : Memory} (hm : Memory.wf m) {c : Host.Cell} :
    c ∈ m ↔ c.1 < 256 ∧ c.2 ≠ Config.unlistedByte ∧ Memory.read m c.1 = c.2 := by
  constructor
  · intro hc
    obtain ⟨hlt, hne⟩ := hm.2 c hc
    exact ⟨hlt, hne, Memory.read_of_mem hm.1 hc⟩
  · rintro ⟨-, hne, hread⟩
    have hc := Memory.mem_of_read_ne (hread ▸ hne)
    rwa [hread] at hc

/-- Settles O47: the two lists are sorted by address, and by `Memory.mem_iff_read` they have the same cells. -/
theorem canonicalMemoryIsUnique : Obligations.CanonicalMemoryIsUnique := by
  intro m m' hm hm' hread
  have asymm : Std.Asymm fun c d : Host.Cell => c.1 < d.1 := ⟨fun _ _ => Nat.lt_asymm⟩
  refine hm.1.eq_of_mem_iff hm'.1 fun c => ?_
  rw [Memory.mem_iff_read hm, Memory.mem_iff_read hm']
  exact and_congr_right fun hlt => by rw [hread c.1 hlt]

/-! ### The steps that store -/

section
variable {s t : State} {i : Instr}

theorem ExecEffect.opcode_of_mem_ne (h : ExecEffect s i t) (hm : t.mem ≠ s.mem) :
    i.opcode = 0x45 ∨ i.opcode = 0x50 := by
  cases h with
  | push => exact .inl rfl
  | call => exact .inr rfl
  | jeq a | jne a => split at hm <;> exact absurd rfl hm
  | _ => exact absurd rfl hm

theorem ExecEffect.eq_pushAddr_of_read_ne {x : Nat} (h : ExecEffect s i t)
    (hx : Memory.read t.mem x ≠ Memory.read s.mem x) : x = pushAddr s := by
  obtain e | ⟨v, e⟩ := h.mem_cases
  · exact absurd (by rw [e]) hx
  · by_contra hne
    exact hx (by rw [e, Memory.read_write_ne _ hne])

end

/-- Settles O37: a fault stores nothing, and an instruction's effect stores by PUSH or CALL, at `pushAddr`. -/
theorem onlyPushAndCallStore : Obligations.OnlyPushAndCallStore := by
  intro s t x h hx
  obtain ⟨hr, ⟨c, -, rfl⟩ | ⟨i, hf, he⟩⟩ := step_effect h
  · exact absurd rfl hx
  · have hop := he.opcode_of_mem_ne fun e => hx (by rw [e])
    exact ⟨hop.imp (fetching_of_opcode hr hf) (fetching_of_opcode hr hf), he.eq_pushAddr_of_read_ne hx⟩

/-! ### A store at the next opcode -/

theorem fetch_push_register {s : State} {a : RegIdx} (h : Fetching s 0x45) (hpc : s.pc.toNat ≤ 254)
    (ha : (byteAt s 1).toNat = a.val) : fetch s = .ok (.push (BitVec.ofNat 8 a.val)) := by
  rw [(fetch_push h).2 hpc, ← ha, BitVec.ofNat_toNat, BitVec.setWidth_eq]

theorem step_hlt {s : State} (h : Fetching s 0x01) : step s = .next (halt s) :=
  (step_fetch_ok h.1 (fetch_hlt h)).trans (execHlt_eq s)

/-- Settles O45: the push stores the register's byte at `pc + 2`, which is the next program counter. -/
theorem fetchSeesTheStoreBeforeIt : Obligations.FetchSeesTheStoreBeforeIt := by
  intro s a h hpc ha ha7 hsp
  have hf := fetch_push_register h (by omega) ha
  have next_pc : (s.pc + BitVec.ofNat 9 2).toNat = s.pc.toNat + 2 := toNat_pc_advance hf
  have source : readReg (decSp s) a = readReg s a :=
    readReg_writeReg_ne s (Fin.ne_of_val_ne (Ne.symm ha7)) _
  have hstep := (step_fetch_ok h.1 hf).trans (execPush_eq a s)
  rw [source] at hstep
  have fetching : Fetching (advance 2 { decSp s with mem := Memory.write (pushAddr s) (readReg s a) s.mem })
      (readReg s a) := by
    refine ⟨h.1, ?_, ?_⟩
    · rw [advance_pc, decSp_pc, next_pc]; omega
    · rw [byteAt, advance_pc, decSp_pc, next_pc, Nat.add_zero, ← hsp]
      exact Memory.read_write_self ..
  exact ⟨_, hstep, fetching, fun hone => step_hlt (hone ▸ fetching)⟩

end Sys2Proof.Machine
end

section
/-! PROOFS. Encoding at the program counter: the rows of the opcode table, the bytes that are no opcode, and a fetch as
the reading of an instruction's own bytes, wherever they came from. -/

namespace Sys2Proof

/-- Settles O52: each row is the encoding of its instruction, which `decodeInvertsEncode` decodes. -/
theorem opcodeTableDecodes : Obligations.OpcodeTableDecodes := by
  intro a b rest
  have row : ∀ i : Instr, decode (encode i ++ rest) = .ok (i, rest) := fun i => (decodeInvertsEncode _ i rest).2 rfl
  exact ⟨row (.ldi a b), row (.prn a), row (.add a b), row (.mul a b), row (.cmp a b), row .hlt, row (.push a),
    row (.pop a), row (.call a), row .ret, row (.jeq a), row (.jne a), row (.jmp a)⟩

theorem encode_prefix_of_decodeTableWord {nbits w : Nat} {i : Instr} (h : decodeTableWord nbits w = some i) :
    encode i <+: tableBytes nbits w := by
  unfold decodeTableWord at h
  split at h
  · next j rest hd =>
    obtain rfl := Option.some.inj h
    exact ⟨rest, ((decodeInvertsEncode _ _ _).1 hd).symm⟩
  · cases h

theorem length_tableBytes (nbits w : Nat) : (tableBytes nbits w).length = 3 := by simp [tableBytes, maxWidth]

namespace Machine

open Sys2Proof.Safety

/-! ### Opcodes of no instruction -/

/-- Settles O31: no row of the opcode table lies in the rule's ranges, so the fetch faults. -/
theorem illegalOpcodesFault : Obligations.IllegalOpcodesFault := by
  rintro s op ⟨hr, hpc, rfl⟩ hrange
  have unknown : ∀ i : Instr, i.opcode ≠ byteAt s 0 := by
    intro i hi
    rw [← hi] at hrange
    cases i <;> simp [Instr.opcode] at hrange
  exact step_fetch_error hr (fetch_unknown hpc unknown)

/-! ### A fetch reads the instruction's own bytes -/

/-- The converse of `fetch_eq_ok`: an instruction whose bytes lie whole in memory at the program counter is fetched. -/
theorem fetch_of_bytes {s : State} {i : Instr} (hin : s.pc.toNat + i.width ≤ 256)
    (hbytes : ∀ n < i.width, ∀ b, (encode i)[n]? = some b → byteAt s n = b) : fetch s = .ok i := by
  refine decodeFrom_of_bytes fun n b hb => ?_
  have hn : n < i.width := length_encode i ▸ (List.getElem?_eq_some_iff.1 hb).1
  rw [memRead_byteAt (by omega), hbytes n hn b hb]

/-- Settles O40: the other memory holds the same bytes of the instruction, so they are fetched there too. -/
theorem fetchReadsOnlyTheWidth : Obligations.FetchReadsOnlyTheWidth := by
  intro s i m hf hagree
  have hin := pc_add_width_le hf
  exact fetch_of_bytes hin fun n hn b hb => (hagree n hn).trans (fetch_eq_ok hf hb).2

/-! ### Placing a table word -/

/-- A load from `a` puts its bytes at `a` and up, and changes no cell beyond them. -/
theorem read_loadBytes (vs : List Byte) (a n : Nat) (m : Memory) :
    Memory.read (loadBytes a vs m) (a + n) = vs[n]?.getD (Memory.read m (a + n)) := by
  induction vs generalizing a n m with
  | nil => rfl
  | cons v vs ih =>
    cases n with
    | zero => exact (read_loadBytes_lt vs (Nat.lt_succ_self a)).trans (Memory.read_write_self m a v)
    | succ n =>
      have shift : a + (n + 1) = a + 1 + n := by omega
      rw [loadBytes, shift, ih, Memory.read_write_ne m (by omega), List.getElem?_cons_succ]

/-- Where all three bytes fit, the placed word's bytes are those at the program counter. -/
theorem byteAt_withFetchWord {s : State} {nbits w n : Nat} {b : Byte} (hpc : s.pc.toNat ≤ 253)
    (hb : (tableBytes nbits w)[n]? = some b) : byteAt (s.withFetchWord nbits w) n = b := by
  have fits : (tableBytes nbits w).take (Config.memSize - s.pc.toNat) = tableBytes nbits w :=
    List.take_of_length_le (by rw [length_tableBytes, memSize_eq]; omega)
  simp only [byteAt, State.withFetchWord, fits, read_loadBytes, hb, Option.getD_some]

/-- Settles O54: the placed bytes begin with the encoding of `i`, so the step fetches `i`. -/
theorem placedWordIsTheNextInstruction : Obligations.PlacedWordIsTheNextInstruction := by
  intro s nbits w i hpc hdecode
  obtain ⟨rest, hword⟩ := encode_prefix_of_decodeTableWord hdecode
  have hwidth : i.width ≤ 3 := by
    rw [← length_encode, ← length_tableBytes nbits w, ← hword, List.length_append]; omega
  have hin : s.pc.toNat + i.width ≤ 256 := by omega
  refine step_fetch_ok rfl (fetch_of_bytes hin fun n hn b hb => byteAt_withFetchWord hpc ?_)
  rwa [← hword, List.getElem?_append_left (length_encode i ▸ hn)]

end Machine
end Sys2Proof
end

section
/-! PROOFS. Fetch, decode, execute: when a step exists, what it runs, which operands it checks, and how the run state
moves. -/

namespace Sys2Proof

/-! ### Decoding, whatever the errors are called -/

section
variable {ε ε' : Type} (f : ε → ε') {read : Nat → Except ε Byte}

theorem readR_mapError (mk : Byte → Instr) :
    readR (fun n => (read n).mapError f) mk = (readR read mk).mapError f := by
  simp only [readR]
  cases read 1 <;> rfl

theorem readAB_mapError (mk : Byte → Byte → Instr) :
    readAB (fun n => (read n).mapError f) mk = (readAB read mk).mapError f := by
  simp only [readAB]
  cases read 1 with
  | error e => rfl
  | ok a => cases read 2 <;> rfl

/-- Renaming the errors of the reads and of the lookup renames the errors of the decoder, and changes nothing else. -/
theorem decodeFrom_mapError (unknown : Byte → ε) :
    decodeFrom (fun n => (read n).mapError f) (fun op => f (unknown op)) = (decodeFrom read unknown).mapError f := by
  have mapError_ok : ∀ op : Byte, (Except.ok op).mapError f = .ok op := fun _ => rfl
  simp only [decodeFrom]
  cases read 0 with
  | error e => rfl
  | ok op =>
    simp only [mapError_ok, bind, Except.bind]
    split
    case h_1 | h_3 | h_4 | h_5 => exact readAB_mapError f _
    case h_2 | h_7 | h_8 | h_9 | h_11 | h_12 | h_13 => exact readR_mapError f _
    case h_6 | h_10 | h_14 => rfl

end

theorem decode_eq_error {bs : List Byte} {r : Reject} :
    decode bs = .error r ↔ decodeFrom (byteOf bs) Reject.unknownOpcode = .error r := by
  unfold decode
  cases decodeFrom (byteOf bs) Reject.unknownOpcode <;> simp

namespace Machine

open Sys2Proof.Safety

/-! ### The fetch is the decoder at the program counter -/

/-- The fault of R112 for a reason why the bytes at the program counter decode to nothing. -/
def rejectCause (s : State) : Reject → FaultCause
  | .missingByte n => .memoryOutOfBounds (s.pc.toNat + n)
  | .unknownOpcode op => .unrecognizedOpcode op s.pc

theorem memRead_eq_byteOf_codeAt (s : State) (n : Nat) :
    memRead s (s.pc.toNat + n) = (byteOf (codeAt s) n).mapError (rejectCause s) := by
  by_cases h : s.pc.toNat + n < 256
  · have hn : n < 256 - s.pc.toNat := by omega
    rw [memRead_byteAt h]
    simp [byteOf, codeAt, hn, Except.mapError]
  · have hn : ¬ n < 256 - s.pc.toNat := by omega
    rw [memRead_beyond (Nat.not_lt.1 h)]
    simp [byteOf, codeAt, hn, Except.mapError, rejectCause]

theorem fetch_eq_decodeFrom (s : State) :
    fetch s = (decodeFrom (byteOf (codeAt s)) Reject.unknownOpcode).mapError (rejectCause s) := by
  rw [← decodeFrom_mapError, ← funext (memRead_eq_byteOf_codeAt s)]
  rfl

theorem fetch_of_decode_ok {s : State} {i : Instr} {rest : List Byte} (h : decode (codeAt s) = .ok (i, rest)) :
    fetch s = .ok i := by
  rw [fetch_eq_decodeFrom, (decode_eq_ok.1 h).1]; rfl

theorem fetch_of_decode_error {s : State} {r : Reject} (h : decode (codeAt s) = .error r) :
    fetch s = .error (rejectCause s r) := by
  rw [fetch_eq_decodeFrom, decode_eq_error.1 h]; rfl

/-- Settles O53: the fetch is the decoder on the bytes at the program counter, its errors read as faults. -/
theorem stepRunsTheDecodedInstruction : Obligations.StepRunsTheDecodedInstruction := fun _ hr =>
  ⟨fun _ _ h => step_fetch_ok hr (fetch_of_decode_ok h),
    fun _ h => step_fetch_error hr (fetch_of_decode_error h),
    fun _ h => step_fetch_error hr (fetch_of_decode_error h)⟩

/-! ### When a step exists -/

theorem exists_step_of_running {s : State} (hr : s.run = .running) : ∃ t, step s = .next t := by
  cases hf : fetch s with
  | error c => exact ⟨_, step_fetch_error hr hf⟩
  | ok i =>
    obtain ⟨t, ht, -⟩ := exec_effect i s
    exact ⟨t, (step_fetch_ok hr hf).trans ht⟩

/-- Settles O29: a fetch that raises is taken as a fault, and every meaning answers a next state. -/
theorem runningIsNeverStuck : Obligations.RunningIsNeverStuck := fun _ =>
  ⟨fun ⟨_, h⟩ => (step_effect h).1, exists_step_of_running⟩

/-- Settles O28, by `step_effect` and the equations of `step` in the two terminal states. -/
theorem terminalStatesHaveNoStep : Obligations.TerminalStatesHaveNoStep := fun _ hr =>
  ⟨fun _ h => hr (step_effect h).1, step_halted, step_faulted⟩

/-! ### The register operands -/

theorem firstBadOperand_of_head {i : Instr} {a : Byte} (h : i.regOperands.head? = some a) (ha : 8 ≤ a.toNat) :
    firstBadOperand i = some a := by
  obtain ⟨rest, hrest⟩ := List.head?_eq_some_iff.1 h
  simp [firstBadOperand, hrest, ha]

theorem firstBadOperand_of_second {i : Instr} {a b : Byte} (h : i.regOperands = [a, b]) (ha : a.toNat < 8)
    (hb : 8 ≤ b.toNat) : firstBadOperand i = some b := by
  simp [firstBadOperand, h, ha, hb]

/-- Settles O32: the bad operand is the first such one in the order of the format, and `exec` faults with it. -/
theorem registerOperandsAreChecked : Obligations.RegisterOperandsAreChecked := by
  intro a b s
  refine ⟨fun ha i hi => ?_, fun ha hb i hi => ?_, fun ha => ⟨_, withReg_ok s _ ha, rfl⟩⟩
  · have opA_first : i.regOperands.head? = some a := by
      revert i; simp [Instr.regOperands]
    exact exec_of_firstBadOperand (firstBadOperand_of_head opA_first ha) s
  · have opA_opB : i.regOperands = [a, b] := by
      revert i; simp [Instr.regOperands]
    exact exec_of_firstBadOperand (firstBadOperand_of_second opA_opB ha hb) s

/-! ### The opcode lists, by the instruction -/

theorem opcode_mem_opcodes (i : Instr) : i.opcode ∈ opcodes1 ++ opcodes2 ++ opcodes3 := by
  cases i <;> simp [Instr.opcode, opcodes1, opcodes2, opcodes3]

theorem opcode_mem_opcodes1 (i : Instr) : i.opcode ∈ opcodes1 ↔ i.width = 1 := by
  cases i <;> simp [Instr.opcode, Instr.width, opcodes1]

theorem opcode_mem_opcodes3 (i : Instr) : i.opcode ∈ opcodes3 ↔ i.width = 3 := by
  cases i <;> simp [Instr.opcode, Instr.width, opcodes3]

theorem opcode_mem_opcodesRR (i : Instr) : i.opcode ∈ opcodesRR ↔ i.regOperands.length = 2 := by
  cases i <;> simp [Instr.opcode, Instr.regOperands, opcodesRR]

theorem width_le_three (i : Instr) : i.width ≤ 3 := by cases i <;> simp [Instr.width]

theorem width_eq_one_iff (i : Instr) : i.width = 1 ↔ i.regOperands = [] := by
  cases i <;> simp [Instr.width, Instr.regOperands]

theorem length_regOperands_le (i : Instr) : i.regOperands.length ≤ 2 := by cases i <;> simp [Instr.regOperands]

theorem regOperands_prefix (i : Instr) : i.regOperands <+: i.operandBytes := by
  cases i <;> simp [Instr.regOperands, Instr.operandBytes]

/-- A register operand of a fetched instruction is the byte at its place after the opcode. -/
theorem byteAt_regOperand {s : State} {i : Instr} (hf : fetch s = .ok i) {n : Nat} {b : Byte}
    (hb : i.regOperands[n]? = some b) : byteAt s (n + 1) = b := by
  obtain ⟨hn, rfl⟩ := List.getElem?_eq_some_iff.1 hb
  exact (fetch_eq_ok hf (n := n + 1) (List.prefix_iff_getElem?.1 (regOperands_prefix i) n hn)).2

/-! ### The fault a step owes -/

section
variable {s t : State} {i : Instr}

/-- The fault that a fetched instruction takes: a register operand out of range (R114), or else the return address of
CALL (R174). -/
def execFault (s : State) (i : Instr) : Option FaultCause :=
  match firstBadOperand i with
  | some b => some (.registerOutOfBounds b)
  | none =>
    if i.opcode = 0x50 ∧ 256 ≤ s.pc.toNat + 2 then some (.memoryOutOfBounds (s.pc.toNat + 2)) else none

/-- An instruction whose bytes all exist is fetched, whatever its operand bytes are. -/
theorem exists_fetch_of_fits (hf : Fetching s i.opcode) (hin : s.pc.toNat + i.width ≤ 256) :
    ∃ j, fetch s = .ok j := by
  have three : i.width = 3 → s.pc.toNat ≤ 253 := by omega
  have two : i.width = 2 → s.pc.toNat ≤ 254 := by omega
  cases i with
  | ldi => exact ⟨_, (fetch_ldi hf).2 (three rfl)⟩
  | prn => exact ⟨_, (fetch_prn hf).2 (two rfl)⟩
  | add => exact ⟨_, (fetch_add hf).2 (three rfl)⟩
  | mul => exact ⟨_, (fetch_mul hf).2 (three rfl)⟩
  | cmp => exact ⟨_, (fetch_cmp hf).2 (three rfl)⟩
  | hlt => exact ⟨_, fetch_hlt hf⟩
  | push => exact ⟨_, (fetch_push hf).2 (two rfl)⟩
  | pop => exact ⟨_, (fetch_pop hf).2 (two rfl)⟩
  | call => exact ⟨_, (fetch_call hf).2 (two rfl)⟩
  | ret => exact ⟨_, fetch_ret hf⟩
  | jeq => exact ⟨_, (fetch_jeq hf).2 (two rfl)⟩
  | jne => exact ⟨_, (fetch_jne hf).2 (two rfl)⟩
  | jmp => exact ⟨_, (fetch_jmp hf).2 (two rfl)⟩

/-- R199, the operand fetch: an instruction that runs past the end of memory owes the fault at address 256. -/
theorem faultDue_of_missing_byte (hf : Fetching s i.opcode) (hout : 256 < s.pc.toNat + i.width) :
    faultDue s = some (.memoryOutOfBounds 256) := by
  obtain ⟨-, hpc, hop⟩ := hf
  have hw := width_le_three i
  simp only [faultDue, hop, opcode_mem_opcodes, opcode_mem_opcodes1, opcode_mem_opcodes3, Nat.not_le.2 hpc,
    if_false, not_true_eq_false]
  by_cases h255 : s.pc.toNat = 255
  · rw [if_pos (by omega), h255]
  · rw [if_neg (by omega), if_pos (by omega)]
    congr 2; omega

/-- R199: a fetch that raises raises the fault the step owes. -/
theorem faultDue_of_fetch_error {c : FaultCause} (hr : s.run = .running) (h : fetch s = .error c) :
    faultDue s = some c := by
  by_cases hpc : 256 ≤ s.pc.toNat
  · obtain rfl : .memoryOutOfBounds s.pc.toNat = c := by simpa [fetch_beyond hpc] using h
    exact if_pos hpc
  rcases opcode_or_unknown (byteAt s 0) with ⟨i, hi⟩ | hunknown
  · have hf : Fetching s i.opcode := ⟨hr, Nat.not_le.1 hpc, hi.symm⟩
    have hout : 256 < s.pc.toNat + i.width := by
      by_contra hin
      obtain ⟨j, hj⟩ := exists_fetch_of_fits hf (Nat.not_lt.1 hin)
      simp [hj] at h
    rw [faultDue_of_missing_byte hf hout]
    obtain ⟨n, -, rfl, hge, hn⟩ | ⟨-, -, hop⟩ := fetch_eq_error hr h
    · congr 2; omega
    · exact absurd hi (hop i)
  · obtain rfl : .unrecognizedOpcode (byteAt s 0) s.pc = c := by
      simpa [fetch_unknown (Nat.not_le.1 hpc) hunknown] using h
    have unlisted : byteAt s 0 ∉ opcodes1 ++ opcodes2 ++ opcodes3 := fun hmem =>
      (exists_opcode_of_mem hmem).elim hunknown
    rw [faultDue, if_neg hpc, if_pos unlisted]

/-- The register check of a fetched instruction (R114), by the bytes at the program counter. -/
theorem firstBadOperand_of_fetch (hf : fetch s = .ok i) :
    firstBadOperand i =
      if ¬ i.width = 1 ∧ 8 ≤ (byteAt s 1).toNat then some (byteAt s 1)
      else if i.opcode ∈ opcodesRR ∧ 8 ≤ (byteAt s 2).toNat then some (byteAt s 2)
      else none := by
  have operand : ∀ n b, i.regOperands[n]? = some b → byteAt s (n + 1) = b := fun _ _ => byteAt_regOperand hf
  have length_le := length_regOperands_le i
  simp only [firstBadOperand, width_eq_one_iff, opcode_mem_opcodesRR]
  match hops : i.regOperands with
  | [] => rfl
  | [a] =>
    have opA := operand 0 a (by rw [hops]; rfl)
    by_cases ha : 8 ≤ a.toNat <;> simp [opA, ha]
  | [a, b] =>
    have opA := operand 0 a (by rw [hops]; rfl)
    have opB := operand 1 b (by rw [hops]; rfl)
    by_cases ha : 8 ≤ a.toNat
    · simp [opA, ha]
    · by_cases hb : 8 ≤ b.toNat <;> simp [opA, opB, ha, hb]
  | _ :: _ :: _ :: _ => simp [hops] at length_le

/-- R199: past the fetch, the fault a step owes is the instruction's own. -/
theorem faultDue_of_fetch_ok (hf : fetch s = .ok i) : faultDue s = execFault s i := by
  have hin := pc_add_width_le hf
  have hpos := width_pos i
  have hop := (fetch_eq_ok hf (n := 0) (b := i.opcode) rfl).2
  have opcode_in : ¬ 256 ≤ s.pc.toNat := by omega
  have opA_in : ¬ (i.width ≠ 1 ∧ 256 ≤ s.pc.toNat + 1) := by omega
  have opB_in : ¬ (i.width = 3 ∧ 256 ≤ s.pc.toNat + 2) := by omega
  simp only [faultDue, hop, opcode_mem_opcodes, opcode_mem_opcodes1, opcode_mem_opcodes3, opcode_in, opA_in, opB_in,
    if_false, not_true_eq_false]
  rw [execFault, firstBadOperand_of_fetch hf]
  split_ifs <;> rfl

/-- An instruction takes the fault it owes, or owes none and completes. -/
theorem exec_fault_cases (hr : s.run = .running) (h : exec i s = .next t) :
    (∃ c, execFault s i = some c ∧ t = takeFault c s) ∨
    (execFault s i = none ∧ t.run ≠ .faulted ∧ t.faultCause = s.faultCause) := by
  have running : s.run ≠ .faulted := by simp [hr]
  cases hbad : firstBadOperand i with
  | some b =>
    obtain rfl : takeFault (.registerOutOfBounds b) s = t := by simpa [exec_of_firstBadOperand hbad] using h
    exact .inl ⟨.registerOutOfBounds b, by simp [execFault, hbad], rfl⟩
  | none =>
    have owes_none : i.opcode ≠ 0x50 ∨ s.pc.toNat + 2 < 256 → execFault s i = none := by
      intro h
      simp only [execFault, hbad]
      exact if_neg fun ⟨hop, hge⟩ => h.elim (· hop) (Nat.not_lt.2 hge)
    cases execEffect_of_exec h with
    | register b hb h8 => exact absurd (toNat_lt_of_firstBadOperand_none hbad hb) (Nat.not_lt.2 h8)
    | returnAddress a hge => exact .inl ⟨_, by simp [execFault, hbad, Instr.opcode, hge], rfl⟩
    | call a hlt => exact .inr ⟨owes_none (.inr hlt), running, rfl⟩
    | hlt => exact .inr ⟨owes_none (.inl (by decide)), by simp, rfl⟩
    | jeq a | jne a =>
      refine .inr ⟨owes_none (.inl (by simp [Instr.opcode])), ?_⟩
      split <;> exact ⟨running, rfl⟩
    | _ => exact .inr ⟨owes_none (.inl (by simp [Instr.opcode])), running, rfl⟩

/-- R199: a step takes the fault it owes, or owes none and completes. -/
theorem step_faultDue_cases (h : step s = .next t) :
    (∃ c, faultDue s = some c ∧ t = takeFault c s) ∨
    (faultDue s = none ∧ t.run ≠ .faulted ∧ t.faultCause = s.faultCause) := by
  obtain ⟨hr, ⟨c, hf, rfl⟩ | ⟨i, hf, hx⟩⟩ := step_eq_next h
  · exact .inl ⟨c, faultDue_of_fetch_error hr hf, rfl⟩
  · rw [faultDue_of_fetch_ok hf]
    exact exec_fault_cases hr hx

/-! ### The run state -/

theorem ExecEffect.eq_hlt_of_halted (h : ExecEffect s i t) (hr : s.run = .running) (ht : t.run = .halted) :
    i = .hlt := by
  cases h with
  | hlt => rfl
  | register | returnAddress => cases ht
  | jeq a | jne a => split at ht <;> simp [hr] at ht
  | _ => simp [hr] at ht

/-- R115, R142: HALT is the only instruction that halts. -/
theorem halted_iff_of_step (h : step s = .next t) : t.run = .halted ↔ Fetching s 0x01 := by
  constructor
  · intro ht
    obtain ⟨hr, ⟨c, -, rfl⟩ | ⟨i, hf, he⟩⟩ := step_effect h
    · cases ht
    · exact fetching_of_opcode hr hf (congrArg Instr.opcode (he.eq_hlt_of_halted hr ht))
  · intro hf
    obtain rfl : halt s = t := by simpa [step_hlt hf] using h
    rfl

theorem faulted_iff_of_step (h : step s = .next t) : t.run = .faulted ↔ (faultDue s).isSome := by
  obtain ⟨c, hdue, rfl⟩ | ⟨hdue, hrun, -⟩ := step_faultDue_cases h
  · simp [hdue]
  · simp [hdue, hrun]

end

/-- Settles O30: reset by evaluation, the three ends of a step by the inversion lemmas above. -/
theorem runStateTransitions : Obligations.RunStateTransitions :=
  ⟨⟨rfl, rfl⟩, fun _ _ h => ⟨(step_effect h).1, halted_iff_of_step h, faulted_iff_of_step h⟩⟩

end Machine
end Sys2Proof
end

section
/-! PROOFS. LOAD-IMMEDIATE, PRINT-REGISTER and HALT; and what an instruction leaves unchanged, one lemma an element of
the state, with the frames of the instructions that store nothing and do not use the stack. -/

namespace Sys2Proof.Machine

open Sys2Proof.Safety

/-! ### What LOAD-IMMEDIATE, PRINT-REGISTER, HALT and RETURN complete with -/

/-- Settles O4, by the equation of LOAD-IMMEDIATE on a checked operand. -/
theorem loadImmediateResult : Obligations.LoadImmediateResult := fun a v s => execLdi_eq a v s

/-- Settles O5, by the equation of PRINT-REGISTER on a checked operand. -/
theorem printRegisterResult : Obligations.PrintRegisterResult := fun a s => execPrn_eq a s

/-- Settles O12: HALT has nothing to check, and the pop of RETURN cannot fault. -/
theorem haltAndReturnResult : Obligations.HaltAndReturnResult := fun s => ⟨execHlt_eq s, execRet_eq s⟩

/-! ### Steps -/

/-- A byte whose value is a register's index is the operand byte that names the register (R85). -/
theorem eq_ofNat_of_val_eq {a : RegIdx} {b : Byte} (h : a.val = b.toNat) : b = BitVec.ofNat 8 a.val :=
  BitVec.eq_of_toNat_eq (by rw [toNat_ofNat_regIdx, h])

/-- R114: a step on an instruction whose first operand is a register out of range takes that fault. -/
theorem step_of_bad_first_operand {s : State} {i : Instr} {a : Byte} (hr : s.run = .running) (hf : fetch s = .ok i)
    (ha : i.regOperands.head? = some a) (h8 : 8 ≤ a.toNat) :
    step s = .next (faultedWith (.registerOutOfBounds a) s) :=
  (step_fetch_ok hr hf).trans (exec_of_firstBadOperand (firstBadOperand_of_head ha h8) s)

/-- Settles O13: the operand fetch, then the register check, then the completion. -/
theorem loadImmediateStep : Obligations.LoadImmediateStep := by
  intro s h
  obtain ⟨beyond, fetched⟩ := fetch_ldi h
  refine ⟨fun e => step_fetch_error h.1 (beyond (by omega)), fun e => step_fetch_error h.1 (beyond e.ge),
    fun hle h8 => step_of_bad_first_operand h.1 (fetched hle) rfl h8, fun hle a ha => ?_⟩
  rw [step_fetch_ok h.1 (fetched hle), eq_ofNat_of_val_eq ha]
  exact loadImmediateResult a (byteAt s 2) s

/-- Settles O14: the operand fetch, then the register check, then the completion. -/
theorem printRegisterStep : Obligations.PrintRegisterStep := by
  intro s h
  obtain ⟨beyond, fetched⟩ := fetch_prn h
  refine ⟨fun e => step_fetch_error h.1 (beyond e),
    fun hle h8 => step_of_bad_first_operand h.1 (fetched hle) rfl h8, fun hle a ha => ?_⟩
  rw [step_fetch_ok h.1 (fetched hle), eq_ofNat_of_val_eq ha]
  exact printRegisterResult a s

/-- Settles O15, by `step_hlt`; no step leaves a terminal state, and `halted_iff_of_step` names the one way there. -/
theorem haltStep : Obligations.HaltStep :=
  ⟨fun s h => ⟨step_hlt h, (terminalStatesHaveNoStep (halt s) (by simp)).1⟩,
    fun _ _ h ht => (halted_iff_of_step h).1 ht⟩

/-! ### What an instruction leaves unchanged, by its opcode -/

section
variable {s t : State} {i : Instr}

theorem ExecEffect.readFlag_eq {k : FlagIdx} (h : ExecEffect s i t) (hk : i.opcode = 0xA7 → k.val ≠ 7) :
    readFlag t k = readFlag s k := by
  obtain e | ⟨hop, v, e⟩ := h.flags_cases
  · simp [readFlag, e]
  · simp [readFlag, e, (hk hop).symm]

/-- R23: a register that is neither the destination nor the stack pointer of a stack instruction is kept. -/
theorem ExecEffect.readReg_eq {j : RegIdx} (h : ExecEffect s i t)
    (hdest : i.opcode ∈ [0x82, 0xA0, 0xA2, 0x46] → i.operandBytes[0]? ≠ some (BitVec.ofNat 8 j.val))
    (hsp : i.opcode ∈ [0x45, 0x46, 0x50, 0x11] → j ≠ Config.spIndex) : readReg t j = readReg s j := by
  by_contra hne
  obtain ⟨hop, ha⟩ | ⟨hop, hj⟩ := h.register_written hne
  · exact hdest (by simpa using hop) ha
  · exact hsp (by simpa using hop) hj

theorem ExecEffect.mem_eq (h : ExecEffect s i t) (hpush : i.opcode ≠ 0x45) (hcall : i.opcode ≠ 0x50) :
    t.mem = s.mem := by
  by_contra hne
  exact (h.opcode_of_mem_ne hne).elim hpush hcall

theorem ExecEffect.out_eq (h : ExecEffect s i t) (hprn : i.opcode ≠ 0x47) : t.out = s.out :=
  h.out_cases.resolve_right fun ⟨_, hi, _⟩ => hprn (congrArg Instr.opcode hi)

/-- R198: on register operands in range, and with a return address in memory, no fault is recorded and only HALT writes
the run state. -/
theorem ExecEffect.run_faultCause_eq (h : ExecEffect s i t) (hw : WellFormed i)
    (hcall : i.opcode = 0x50 → s.pc.toNat + 2 < 256) :
    t.faultCause = s.faultCause ∧ (i ≠ .hlt → t.run = s.run) := by
  cases h with
  | register b hb h8 => exact absurd (hw b hb) (Nat.not_lt.2 h8)
  | returnAddress a hge => exact absurd (hcall rfl) (Nat.not_lt.2 hge)
  | hlt => exact ⟨rfl, fun hne => absurd rfl hne⟩
  | jeq a | jne a => split <;> exact ⟨rfl, fun _ => rfl⟩
  | _ => exact ⟨rfl, fun _ => rfl⟩

end

/-! ### Frames -/

/-- Settles O55: the element lemmas above, the destination being the register that `opA` names. -/
theorem registerDestinationFrame : Obligations.RegisterDestinationFrame := by
  intro a b i s t hi hx
  have he := execEffect_of_exec hx
  have opA : i.operandBytes[0]? = some a := by rcases hi with rfl | rfl | rfl <;> rfl
  obtain ⟨no_stack, hcmp, hpush, hcall, hprn, hhlt⟩ : i.opcode ∉ [0x45, 0x46, 0x50, 0x11] ∧ i.opcode ≠ 0xA7 ∧
      i.opcode ≠ 0x45 ∧ i.opcode ≠ 0x50 ∧ i.opcode ≠ 0x47 ∧ i ≠ .hlt := by
    rcases hi with rfl | rfl | rfl <;> simp [Instr.opcode]
  refine ⟨fun j hj => he.readReg_eq (fun _ hdest => hj ?_) fun h => absurd h no_stack,
    fun k => he.readFlag_eq fun h => absurd h hcmp, fun x => by rw [he.mem_eq hpush hcall], he.out_eq hprn,
    fun hw => ?_⟩
  · obtain rfl : a = BitVec.ofNat 8 j.val := by simpa [opA] using hdest
    exact (toNat_ofNat_regIdx j).symm
  · obtain ⟨hcause, hrun⟩ := he.run_faultCause_eq hw fun h => absurd h hcall
    exact ⟨hrun hhlt, hcause⟩

/-- Settles O56: the element lemmas above; of the six, only COMPARE has the opcode that writes a flag, and only
PRINT-REGISTER the one that writes the output. -/
theorem noRegisterNoStoreFrame : Obligations.NoRegisterNoStoreFrame := by
  intro a b i s t hi hx
  have he := execEffect_of_exec hx
  obtain ⟨no_dest, no_stack, hpush, hcall, hcmp, hprn⟩ : i.opcode ∉ [0x82, 0xA0, 0xA2, 0x46] ∧
      i.opcode ∉ [0x45, 0x46, 0x50, 0x11] ∧ i.opcode ≠ 0x45 ∧ i.opcode ≠ 0x50 ∧
      (i.opcode = 0xA7 → i = .cmp a b) ∧ (i.opcode = 0x47 → i = .prn a) := by
    rcases hi with rfl | rfl | rfl | rfl | rfl | rfl <;> simp [Instr.opcode]
  have run_cause := fun hw : WellFormed i => he.run_faultCause_eq hw fun h => absurd h hcall
  refine ⟨fun j => he.readReg_eq (fun h => absurd h no_dest) fun h => absurd h no_stack,
    fun x => by rw [he.mem_eq hpush hcall], fun k hk => he.readFlag_eq fun h => hk (hcmp h),
    fun hne => he.out_eq fun h => hne (hprn h), fun hw => (run_cause hw).2, fun hw => (run_cause hw).1, ?_⟩
  rintro rfl
  obtain rfl : halt s = t := by simpa using (execHlt_eq s).symm.trans hx
  rfl

end Sys2Proof.Machine
end

section
/-! PROOFS. ADD, MULTIPLY and COMPARE: what each completes with on registers in range, and the whole step, the fault
order of format RR being one lemma for the three. -/

namespace Sys2Proof.Machine

open Sys2Proof.Safety

/-! ### The ALU's results -/

theorem toNat_aluAdd (x y : Byte) : (aluAdd x y).toNat = (x.toNat + y.toNat) % 256 := BitVec.toNat_ofNat ..

theorem toNat_aluMul (x y : Byte) : (aluMul x y).toNat = (x.toNat * y.toNat) % 256 := BitVec.toNat_ofNat ..

/-! ### What the three complete with -/

/-- Settles O6: the ALU's value is the exact one modulo 256, and the meanings write it to `a`. -/
theorem addAndMultiplyResult : Obligations.AddAndMultiplyResult := fun a b s =>
  ⟨⟨aluAdd (readReg s a) (readReg s b), toNat_aluAdd .., execAdd_eq a b s⟩,
    ⟨aluMul (readReg s a) (readReg s b), toNat_aluMul .., execMul_eq a b s⟩⟩

/-- Settles O7, by the equation of COMPARE on checked operands; the ALU's test is equality of the two bytes. -/
theorem compareResult : Obligations.CompareResult := fun a b s => execCmp_eq a b s

/-! ### Steps -/

/-- R114, R125: a step on an instruction of format RR, from its fetch: a missing operand byte, then `opA`, then `opB`,
and otherwise the instruction's meaning on the two registers. -/
theorem step_of_register_pair {s : State} {mk : Byte → Byte → Instr} (hr : s.run = .running)
    (hmk : ∀ a b, (mk a b).regOperands = [a, b])
    (hfetch : (254 ≤ s.pc.toNat → fetch s = .error (.memoryOutOfBounds 256)) ∧
      (s.pc.toNat ≤ 253 → fetch s = .ok (mk (byteAt s 1) (byteAt s 2)))) :
    (254 ≤ s.pc.toNat → step s = .next (faultedWith (.memoryOutOfBounds 256) s)) ∧
    (s.pc.toNat ≤ 253 → 8 ≤ (byteAt s 1).toNat →
      step s = .next (faultedWith (.registerOutOfBounds (byteAt s 1)) s)) ∧
    (s.pc.toNat ≤ 253 → (byteAt s 1).toNat < 8 → 8 ≤ (byteAt s 2).toNat →
      step s = .next (faultedWith (.registerOutOfBounds (byteAt s 2)) s)) ∧
    (s.pc.toNat ≤ 253 → ∀ a b : RegIdx, a.val = (byteAt s 1).toNat → b.val = (byteAt s 2).toNat →
      step s = exec (mk (BitVec.ofNat 8 a.val) (BitVec.ofNat 8 b.val)) s) := by
  obtain ⟨beyond, fetched⟩ := hfetch
  refine ⟨fun hge => step_fetch_error hr (beyond hge), fun hle ha => ?_, fun hle ha hb => ?_,
    fun hle a b ha hb => ?_⟩
  · exact step_of_bad_first_operand hr (fetched hle) (by rw [hmk]; rfl) ha
  · have opB_bad := firstBadOperand_of_second (hmk (byteAt s 1) (byteAt s 2)) ha hb
    exact (step_fetch_ok hr (fetched hle)).trans (exec_of_firstBadOperand opB_bad s)
  · rw [step_fetch_ok hr (fetched hle), eq_ofNat_of_val_eq ha, eq_ofNat_of_val_eq hb]

/-- Settles O16: the fault order of format RR, then the completion of ADD. -/
theorem addStep : Obligations.AddStep := by
  intro s h
  obtain ⟨beyond, opA_bad, opB_bad, runs⟩ := step_of_register_pair h.1 (fun _ _ => rfl) (fetch_add h)
  refine ⟨beyond, opA_bad, opB_bad, fun hle a b ha hb => ?_⟩
  rw [runs hle a b ha hb]
  exact (addAndMultiplyResult a b s).1

/-- Settles O17: the fault order of format RR, then the completion of MULTIPLY. -/
theorem multiplyStep : Obligations.MultiplyStep := by
  intro s h
  obtain ⟨beyond, opA_bad, opB_bad, runs⟩ := step_of_register_pair h.1 (fun _ _ => rfl) (fetch_mul h)
  refine ⟨beyond, opA_bad, opB_bad, fun hle a b ha hb => ?_⟩
  rw [runs hle a b ha hb]
  exact (addAndMultiplyResult a b s).2

/-- Settles O18: the fault order of format RR, then the completion of COMPARE. -/
theorem compareStep : Obligations.CompareStep := by
  intro s h
  obtain ⟨beyond, opA_bad, opB_bad, runs⟩ := step_of_register_pair h.1 (fun _ _ => rfl) (fetch_cmp h)
  refine ⟨beyond, opA_bad, opB_bad, fun hle a b ha hb => ?_⟩
  rw [runs hle a b ha hb]
  exact compareResult a b s

end Sys2Proof.Machine
end

section
/-! PROOFS. PUSH and POP, and the frames of the instructions that use the stack. -/

namespace Sys2Proof.Machine

open Sys2Proof.Safety

/-! ### What PUSH and POP complete with -/

/-- Settles O8, by the equation of PUSH on a checked operand. -/
theorem pushResult : Obligations.PushResult := fun a s => execPush_eq a s

/-- Settles O9, by the equation of POP on a checked operand. -/
theorem popResult : Obligations.PopResult := fun a s _ hv => hv ▸ execPop_eq a s

/-- Settles O44: a register is read after a decrement and incremented after a write, also where it is the stack
pointer. -/
theorem stackFormsOnRegisterSeven : Obligations.StackFormsOnRegisterSeven := by
  intro s
  have source : readReg (decSp s) 7 = sp s - 1 := sp_decSp s
  refine ⟨⟨_, execPush_eq 7 s, source, ?_⟩, ⟨_, execPop_eq 7 s, ?_⟩, fun hpc =>
    ⟨_, execCall_eq 7 hpc, source, ?_, by rw [loadPc_pc, source]⟩⟩
  · rw [source]; exact Memory.read_write_self ..
  · have loaded : sp (writeReg 7 (Memory.read s.mem (sp s).toNat) s) = Memory.read s.mem (sp s).toNat :=
      sp_writeSp ..
    rw [sp_advance, sp_incSp, loaded]
  · have stored := Memory.read_write_self s.mem (pushAddr s) (BitVec.ofNat 8 (s.pc.toNat + 2))
    exact (congrArg BitVec.toNat stored).trans (by rw [BitVec.toNat_ofNat, Nat.mod_eq_of_lt hpc])

/-! ### Steps -/

/-- R114, R125: a step on an instruction of format R, from its fetch: a missing operand byte, then a register out of
range, and otherwise the instruction's meaning on the register. -/
theorem step_of_register_operand {s : State} {mk : Byte → Instr} (hr : s.run = .running)
    (hmk : ∀ a, (mk a).regOperands = [a])
    (hfetch : (s.pc.toNat = 255 → fetch s = .error (.memoryOutOfBounds 256)) ∧
      (s.pc.toNat ≤ 254 → fetch s = .ok (mk (byteAt s 1)))) :
    (s.pc.toNat = 255 → step s = .next (faultedWith (.memoryOutOfBounds 256) s)) ∧
    (s.pc.toNat ≤ 254 → 8 ≤ (byteAt s 1).toNat →
      step s = .next (faultedWith (.registerOutOfBounds (byteAt s 1)) s)) ∧
    (s.pc.toNat ≤ 254 → ∀ a : RegIdx, a.val = (byteAt s 1).toNat →
      step s = exec (mk (BitVec.ofNat 8 a.val)) s) := by
  obtain ⟨beyond, fetched⟩ := hfetch
  refine ⟨fun e => step_fetch_error hr (beyond e), fun hle h8 => ?_, fun hle a ha => ?_⟩
  · exact step_of_bad_first_operand hr (fetched hle) (by rw [hmk]; rfl) h8
  · rw [step_fetch_ok hr (fetched hle), eq_ofNat_of_val_eq ha]

/-- Settles O19: the fault order of format R, then the completion of PUSH. -/
theorem pushStep : Obligations.PushStep := by
  intro s h
  obtain ⟨beyond, opA_bad, runs⟩ := step_of_register_operand h.1 (fun _ => rfl) (fetch_push h)
  exact ⟨beyond, opA_bad, fun hle a ha => (runs hle a ha).trans (pushResult a s)⟩

/-- Settles O20: the fault order of format R, then the completion of POP. -/
theorem popStep : Obligations.PopStep := by
  intro s h
  obtain ⟨beyond, opA_bad, runs⟩ := step_of_register_operand h.1 (fun _ => rfl) (fetch_pop h)
  exact ⟨beyond, opA_bad, fun hle a v ha hv => (runs hle a ha).trans (popResult a s v hv)⟩

/-! ### PUSH and then POP -/

theorem writeReg_readReg (a : RegIdx) (s : State) : writeReg a (readReg s a) s = s := by
  simp [writeReg, readReg]

theorem writeReg_writeReg (a : RegIdx) (v w : Byte) (s : State) : writeReg a w (writeReg a v s) = writeReg a w s := by
  simp [writeReg]

/-- R163: the increment of SP undoes the decrement, also around 0. -/
theorem incSp_decSp (s : State) : incSp (decSp s) = s :=
  calc incSp (decSp s) = writeSp (sp s) (decSp s) := by rw [incSp, sp_decSp, BitVec.sub_add_cancel]
    _ = writeSp (sp s) s := writeReg_writeReg ..
    _ = s := writeReg_readReg ..

theorem readReg_decSp_eq_ite_val (s : State) (r : RegIdx) :
    readReg (decSp s) r = if r.val = 7 then sp s - 1 else readReg s r := by
  simp [readReg_decSp, Config.spIndex, Fin.ext_iff, eq_comm]

/-- The state that PUSH of register `r` leaves (R161). -/
def afterPush (r : RegIdx) (s : State) : State :=
  advance 2 { decSp s with mem := Memory.write (pushAddr s) (readReg (decSp s) r) s.mem }

theorem exec_push_eq_afterPush (r : RegIdx) (s : State) :
    exec (.push (BitVec.ofNat 8 r.val)) s = .next (afterPush r s) := execPush_eq r s

/-- R164: popping what a PUSH has just pushed writes the register's own value back to it and undoes the decrement. -/
theorem exec_pop_afterPush (r : RegIdx) (s : State) :
    exec (.pop (BitVec.ofNat 8 r.val)) (afterPush r s) =
      .next { s with mem := (afterPush r s).mem, pc := s.pc + 4 } := by
  have top : Memory.read (afterPush r s).mem (sp (afterPush r s)).toNat = readReg (afterPush r s) r := by
    have hsp : sp (afterPush r s) = sp s - 1 := sp_decSp s
    rw [hsp]; exact Memory.read_write_self ..
  have incSp_afterPush : incSp (afterPush r s) = advance 2 { s with mem := (afterPush r s).mem } :=
    congrArg (fun u : State => advance 2 { u with mem := (afterPush r s).mem }) (incSp_decSp s)
  calc exec (.pop (BitVec.ofNat 8 r.val)) (afterPush r s)
      = .next (advance 2 (incSp (writeReg r (Memory.read (afterPush r s).mem (sp (afterPush r s)).toNat)
          (afterPush r s)))) := execPop_eq r _
    _ = .next (advance 2 (incSp (afterPush r s))) := by rw [top, writeReg_readReg]
    _ = .next { s with mem := (afterPush r s).mem, pc := s.pc + 4 } := by
        rw [incSp_afterPush]; simp [advance, BitVec.add_assoc]

theorem toNat_pc_afterPush {s : State} {r : RegIdx} (hf : fetch s = .ok (.push (BitVec.ofNat 8 r.val))) :
    (afterPush r s).pc.toNat = s.pc.toNat + 2 := toNat_pc_advance hf

/-- A PUSH moves to the bytes after it, and leaves those it does not store to as they were. -/
theorem byteAt_afterPush {s : State} {r : RegIdx} (hf : fetch s = .ok (.push (BitVec.ofNat 8 r.val))) {n : Nat}
    (hn : (sp s - 1).toNat ≠ s.pc.toNat + (n + 2)) : byteAt (afterPush r s) n = byteAt s (n + 2) := by
  rw [byteAt, toNat_pc_afterPush hf, Nat.add_assoc, Nat.add_comm 2 n]
  exact Memory.read_write_ne _ hn.symm _

/-- Settles O41: the PUSH does not store over the POP, which is then fetched and reads back what was pushed. -/
theorem pushThenPopRestores : Obligations.PushThenPopRestores := by
  intro s r h hpc hr hop hr' hop_kept hr_kept
  have hf := fetch_push_register h (by omega) hr
  have next_pc := toNat_pc_afterPush hf
  have fetching : Fetching (afterPush r s) 0x46 := ⟨h.1, by omega, (byteAt_afterPush hf hop_kept).trans hop⟩
  have operand : r.val = (byteAt (afterPush r s) 1).toNat := by rw [byteAt_afterPush hf hr_kept, hr']
  obtain ⟨-, -, runs⟩ := step_of_register_operand fetching.1 (fun _ => rfl) (fetch_pop fetching)
  refine ⟨afterPush r s, (step_fetch_ok h.1 hf).trans (exec_push_eq_afterPush r s), ?_⟩
  rw [runs (by omega) r operand, exec_pop_afterPush, ← readReg_decSp_eq_ite_val]
  rfl

/-! ### Frames -/

/-- Settles O57, by the lemmas about one element of the state; a byte that changed is the one at `pushAddr`. -/
theorem pushAndCallFrame : Obligations.PushAndCallFrame := by
  intro a i s t hi hx
  have he := execEffect_of_exec hx
  obtain ⟨no_dest, hcmp, hprn, hhlt, hcall⟩ : i.opcode ∉ [0x82, 0xA0, 0xA2, 0x46] ∧ i.opcode ≠ 0xA7 ∧
      i.opcode ≠ 0x47 ∧ i ≠ .hlt ∧ (i.opcode = 0x50 → i = .call a) := by
    rcases hi with rfl | rfl <;> simp [Instr.opcode]
  refine ⟨fun j hj => he.readReg_eq (fun h => absurd h no_dest) fun _ => Fin.ne_of_val_ne hj,
    fun k => he.readFlag_eq fun h => absurd h hcmp, he.out_eq hprn,
    fun x hne => not_imp_comm.1 he.eq_pushAddr_of_read_ne hne, fun hw hret => ?_⟩
  obtain ⟨hcause, hrun⟩ := he.run_faultCause_eq hw fun h => hret (hcall h)
  exact ⟨hrun hhlt, hcause⟩

/-- Settles O58, by the lemmas about one element of the state; RETURN has no destination, and POP's is the register
that `opA` names. -/
theorem popAndReturnFrame : Obligations.PopAndReturnFrame := by
  intro a i s t hi hx
  have he := execEffect_of_exec hx
  obtain ⟨dest_pop, hcmp, hpush, hcall, hprn, hhlt⟩ : (i.opcode ∈ [0x82, 0xA0, 0xA2, 0x46] → i = .pop a) ∧
      i.opcode ≠ 0xA7 ∧ i.opcode ≠ 0x45 ∧ i.opcode ≠ 0x50 ∧ i.opcode ≠ 0x47 ∧ i ≠ .hlt := by
    rcases hi with rfl | rfl <;> simp [Instr.opcode]
  refine ⟨fun j hj hja => he.readReg_eq (fun hop hdest => ?_) fun _ => Fin.ne_of_val_ne hj,
    fun k => he.readFlag_eq fun h => absurd h hcmp, fun x => by rw [he.mem_eq hpush hcall], he.out_eq hprn,
    fun hw => ?_⟩
  · obtain rfl := dest_pop hop
    obtain rfl : a = BitVec.ofNat 8 j.val := by simpa [Instr.operandBytes] using hdest
    exact hja rfl (toNat_ofNat_regIdx j).symm
  · obtain ⟨hcause, hrun⟩ := he.run_faultCause_eq hw fun h => absurd h hcall
    exact ⟨hrun hhlt, hcause⟩

end Sys2Proof.Machine
end

section
/-! PROOFS. JUMP, the two conditional jumps, CALL and RETURN: what each completes with, the whole step, and the two
pairs: one conditional jump after the other, and a RETURN after a CALL. -/

namespace Sys2Proof.Machine

open Sys2Proof.Safety

/-! ### What the jumps and CALL complete with -/

theorem equalFlag_eq (s : State) : equalFlag s = s.flags[7] := rfl

/-- Settles O10: each jump loads `pc` from the register or advances it, as flag 7 says, and writes nothing else. -/
theorem jumpResult : Obligations.JumpResult := by
  intro a s
  refine ⟨execJmp_eq a s, (execJeq_eq a s).trans ?_, (execJne_eq a s).trans ?_⟩
  · rw [equalFlag_eq]; cases s.flags[7] <;> rfl
  · rw [equalFlag_eq]; cases s.flags[7] <;> rfl

/-- Settles O11, by the equation of CALL on a checked operand and a return address in memory. -/
theorem callResult : Obligations.CallResult := fun a _ hpc => execCall_eq a hpc

/-! ### Steps -/

/-- Settles O21: the fault order of format R, then the completion of JUMP. -/
theorem jumpStep : Obligations.JumpStep := by
  intro s h
  obtain ⟨beyond, opA_bad, runs⟩ := step_of_register_operand h.1 (fun _ => rfl) (fetch_jmp h)
  exact ⟨beyond, opA_bad, fun hle a ha => (runs hle a ha).trans (execJmp_eq a s)⟩

/-- Settles O22: the fault order of format R, then the completion of JUMP-IF-EQUAL for either value of the flag. -/
theorem jumpIfEqualStep : Obligations.JumpIfEqualStep := by
  intro s h
  obtain ⟨beyond, opA_bad, runs⟩ := step_of_register_operand h.1 (fun _ => rfl) (fetch_jeq h)
  refine ⟨beyond, opA_bad, fun hle a ha hE => ?_, fun hle hlt hE => ?_⟩
  · obtain ⟨-, jeq, -⟩ := jumpResult a s
    rw [runs hle a ha, jeq, if_pos hE]
  · obtain ⟨-, jeq, -⟩ := jumpResult ⟨(byteAt s 1).toNat, hlt⟩ s
    rw [runs hle ⟨_, hlt⟩ rfl, jeq, if_neg (by simp [hE])]

/-- Settles O23: the fault order of format R, then the completion of JUMP-IF-NOT-EQUAL for either value of the flag. -/
theorem jumpIfNotEqualStep : Obligations.JumpIfNotEqualStep := by
  intro s h
  obtain ⟨beyond, opA_bad, runs⟩ := step_of_register_operand h.1 (fun _ => rfl) (fetch_jne h)
  refine ⟨beyond, opA_bad, fun hle a ha hE => ?_, fun hle hlt hE => ?_⟩
  · obtain ⟨-, -, jne⟩ := jumpResult a s
    rw [runs hle a ha, jne, if_pos hE]
  · obtain ⟨-, -, jne⟩ := jumpResult ⟨(byteAt s 1).toNat, hlt⟩ s
    rw [runs hle ⟨_, hlt⟩ rfl, jne, if_neg (by simp [hE])]

/-- Settles O24: the fault order of format R, then the return address, which only a CALL at 254 has beyond memory. -/
theorem callStep : Obligations.CallStep := by
  intro s h
  obtain ⟨beyond, opA_bad, runs⟩ := step_of_register_operand h.1 (fun _ => rfl) (fetch_call h)
  refine ⟨beyond, opA_bad, fun e hlt => ?_, fun hle a ha => ?_⟩
  · have faults := execCall_error ⟨(byteAt s 1).toNat, hlt⟩ (s := s) (by omega)
    rw [e] at faults
    exact (runs e.le ⟨_, hlt⟩ rfl).trans faults
  · exact (runs (by omega) a ha).trans (callResult a s (by omega))

/-- Settles O25: RETURN is fetched whole at every address, and its completion has no fault. -/
theorem returnStep : Obligations.ReturnStep := fun s h =>
  (step_fetch_ok h.1 (fetch_ret h)).trans (execRet_eq s)

/-! ### One conditional jump after the other -/

/-- Past a fetched instruction, the bytes at the program counter are those that followed the instruction. -/
theorem byteAt_advance {s : State} {i : Instr} (hf : fetch s = .ok i) (n : Nat) :
    byteAt (advance i.width s) n = byteAt s (i.width + n) := by
  have next_pc : (advance i.width s).pc.toNat = s.pc.toNat + i.width := toNat_pc_advance hf
  rw [byteAt, next_pc, Nat.add_assoc]
  rfl

/-- Settles O43: a JUMP-IF-EQUAL not taken moves to the JUMP-IF-NOT-EQUAL after it with the flags as they were, and
that one is then taken. -/
theorem conditionalJumpsAreExclusive : Obligations.ConditionalJumpsAreExclusive := by
  refine ⟨fun a e => by cases e <;> simp [taken], fun s a h hpc ha hop ha' => ?_⟩
  obtain ⟨-, -, jeq_taken, jeq_passed⟩ := jumpIfEqualStep s h
  refine ⟨jeq_taken (by omega) a ha.symm, fun hE => ⟨advance 2 s, jeq_passed (by omega) (by omega) hE, ?_⟩⟩
  obtain ⟨-, fetched⟩ := fetch_jeq h
  have hf := fetched (by omega)
  have next_pc : (advance 2 s).pc.toNat = s.pc.toNat + 2 := toNat_pc_advance hf
  have fetching : Fetching (advance 2 s) 0x56 := ⟨h.1, by omega, (byteAt_advance hf 0).trans hop⟩
  have operand : a.val = (byteAt (advance 2 s) 1).toNat :=
    ha'.symm.trans (congrArg BitVec.toNat (byteAt_advance hf 1).symm)
  obtain ⟨-, -, jne_taken, -⟩ := jumpIfNotEqualStep (advance 2 s) fetching
  exact jne_taken (by omega) a operand hE

/-! ### CALL and then RETURN -/

/-- The state that CALL to register `a` leaves (R174). -/
def afterCall (a : RegIdx) (s : State) : State :=
  loadPc (readReg (decSp s) a)
    { decSp s with mem := Memory.write (pushAddr s) (BitVec.ofNat 8 (s.pc.toNat + 2)) s.mem }

theorem sp_afterCall (a : RegIdx) (s : State) : sp (afterCall a s) = sp s - 1 := sp_decSp s

/-- A CALL leaves the return address on top of the stack (R174). -/
theorem read_sp_afterCall (a : RegIdx) (s : State) :
    Memory.read (afterCall a s).mem (sp (afterCall a s)).toNat = BitVec.ofNat 8 (s.pc.toNat + 2) := by
  rw [sp_afterCall]; exact Memory.read_write_self ..

/-- The byte of a return address in memory, zero-extended, is the address after the CALL (R174, R175). -/
theorem setWidth_returnAddr {s : State} (h : s.pc.toNat + 2 < 256) :
    (BitVec.ofNat 8 (s.pc.toNat + 2)).setWidth 9 = s.pc + 2 := by
  apply BitVec.eq_of_toNat_eq
  rw [toNat_setWidth_nine, BitVec.toNat_ofNat, BitVec.toNat_add, Nat.mod_eq_of_lt h]
  exact (Nat.mod_eq_of_lt (by omega)).symm

/-- R178: a RETURN with SP as the CALL left it and the pushed byte in place goes to the address after the CALL and
undoes the decrement. -/
theorem step_ret_of_pushed {s u : State} {a : RegIdx} (hpc : s.pc.toNat + 2 < 256) (hu : Fetching u 0x11)
    (hsp : sp u = sp (afterCall a s))
    (hread : Memory.read u.mem (sp u).toNat = Memory.read (afterCall a s).mem (sp (afterCall a s)).toNat) :
    step u = .next { u with regs := u.regs.set 7 (sp s), pc := s.pc + 2 } := by
  have popped_pc : (Memory.read u.mem (sp u).toNat).setWidth 9 = s.pc + 2 := by
    rw [hread, read_sp_afterCall, setWidth_returnAddr hpc]
  have popped_sp : sp u + 1 = sp s := by rw [hsp, sp_afterCall, BitVec.sub_add_cancel]
  rw [← popped_pc, ← popped_sp]
  exact returnStep u hu

/-- Settles O42: `step_ret_of_pushed`, at the CALL's own target and later; at the target the other registers are still
those before the CALL. -/
theorem callThenReturnResumes : Obligations.CallThenReturnResumes := by
  intro s h hpc ha
  have hret : s.pc.toNat + 2 < 256 := by omega
  obtain ⟨a, opA⟩ : ∃ a : RegIdx, a.val = (byteAt s 1).toNat := ⟨⟨_, ha⟩, rfl⟩
  obtain ⟨-, -, -, called⟩ := callStep s h
  refine ⟨afterCall a s, called hpc a opA, fun ht => ?_, fun u => step_ret_of_pushed hret⟩
  have regs_restored : (afterCall a s).regs.set 7 (sp s) = s.regs :=
    congrArg State.regs ((writeReg_writeReg 7 (sp s - 1) (sp s) s).trans (writeReg_readReg 7 s))
  rw [step_ret_of_pushed hret ht rfl rfl, regs_restored]
  rfl

end Sys2Proof.Machine
end

section
/-! PROOFS. The fault a step owes and the precise entry into it (R198, R199); and the rendering of the output (R207). -/

namespace Sys2Proof.Machine

open Sys2Proof.Safety

/-! ### Faults -/

/-- Settles O26: a Running machine has a step, and `step_faultDue_cases` says which of the two it is. -/
theorem faultPriority : Obligations.FaultPriority := by
  intro s hr
  obtain ⟨t, ht⟩ := exists_step_of_running hr
  obtain ⟨c, hdue, rfl⟩ | ⟨hdue, completes⟩ := step_faultDue_cases ht
  · rw [takeFault_eq_faultedWith] at ht
    simp [hdue, ht]
  · exact ⟨by simp [hdue], fun _ => ⟨t, ht, completes⟩⟩

/-- Settles O27: the faulting case of `step_faultDue_cases`, read one state element at a time. -/
theorem faultsArePrecise : Obligations.FaultsArePrecise := by
  intro s t h ht
  obtain ⟨c, -, rfl⟩ | ⟨-, not_faulted, -⟩ := step_faultDue_cases h
  · exact ⟨c, takeFault_faultCause s c, readReg_takeFault s c, readFlag_takeFault s c, takeFault_pc s c,
      fun a => congrArg (Memory.read · a) (takeFault_mem s c), takeFault_out s c, takeFault_eq_faultedWith c s⟩
  · exact absurd ht not_faulted

/-! ### Rendering -/

/-- A decimal numeral starts with the digit 0 only where the number is 0: dividing by ten keeps the first digit. -/
theorem eq_zero_of_head?_toDigits (n : Nat) (h : (Nat.toDigits 10 n).head? = some '0') : n = 0 := by
  induction n using Nat.strong_induction_on with
  | h n ih =>
    by_cases one_digit : n < 10
    · rw [Nat.toDigits_of_lt_base one_digit] at h
      exact Nat.digitChar_eq_zero.1 (Option.some.inj h)
    · rw [Nat.toDigits_of_base_le (by decide) (by omega), List.head?_append_of_ne_nil _ Nat.toDigits_ne_nil] at h
      have := ih (n / 10) (by omega) h
      omega

/-- The digits of the rendering read back as the value (R207). -/
theorem foldl_renderValue (v : Byte) :
    (renderValue v).foldl (fun n c => 10 * n + (c.toNat - 48)) 0 = v.toNat :=
  Nat.ofDigitChars_eq_foldl.symm.trans Nat.ofDigitChars_ten_toDigits

theorem toNat_of_mem_renderValue {v : Byte} {c : Char} (h : c ∈ renderValue v) : 48 ≤ c.toNat ∧ c.toNat ≤ 57 :=
  Char.isDigit_iff_toNat.1 (Nat.isDigit_of_mem_toDigits (by decide) (by decide) h)

theorem renderValue_eq_of_head? {v : Byte} (h : (renderValue v).head? = some '0') : renderValue v = ['0'] := by
  rw [renderValue, eq_zero_of_head?_toDigits _ h, Nat.toDigits_zero]

theorem renderOut_append_singleton (nl : List Char) (out : List Byte) (v : Byte) :
    renderOut nl (out ++ [v]) = renderOut nl out ++ (renderValue v ++ nl) := by
  simp [renderOut]

/-- Settles O36: the four facts about a value's numeral, the two examples by evaluation, and the lines in order. -/
theorem renderingIsShortestDecimal : Obligations.RenderingIsShortestDecimal :=
  ⟨fun v => ⟨foldl_renderValue v, fun _ => toNat_of_mem_renderValue, Nat.toDigits_ne_nil, renderValue_eq_of_head?⟩,
    by decide, by decide, fun _ => rfl, renderOut_append_singleton⟩

end Sys2Proof.Machine
end

section
/-! PROOFS. Program load and launch (R222 to R224): the state a run starts in, and which images have one. -/

namespace Sys2Proof.Machine

open Sys2Proof.Safety

/-- R222, R223: the one case in which `launch` answers a state, and the state it answers. -/
theorem launch_eq_some {image : List Byte} {t : State} :
    launch image = some t ↔
      image.length ≤ 256 ∧ t = { State.reset with mem := loadBytes Config.loadBase image State.reset.mem } := by
  by_cases fits : image.length ≤ 256
  · simp [launch, Config.memSize, fits, eq_comm]
  · simp [launch, Config.memSize, fits]

theorem read_of_launch {image : List Byte} {t : State} (h : launch image = some t) (a : Nat) :
    Memory.read t.mem a = image[a]?.getD 0 := by
  obtain ⟨-, rfl⟩ := launch_eq_some.1 h
  have loaded := read_loadBytes image Config.loadBase a State.reset.mem
  rwa [Config.loadBase, Nat.zero_add] at loaded

theorem mem_wf_of_launch {image : List Byte} {t : State} (h : launch image = some t) : Memory.wf t.mem := by
  obtain ⟨fits, rfl⟩ := launch_eq_some.1 h
  exact wf_loadBytes image Memory.wf_nil ((Nat.zero_add _).trans_le fits)

/-- Where no cause is recorded, the invariant asks of memory only that it is canonical. -/
theorem stateInv_with_mem {s : State} {m : Memory} (inv : StateInv s) (no_cause : s.faultCause = none)
    (hm : Memory.wf m) : StateInv { s with mem := m } where
  pc_le := inv.pc_le
  mem_wf := hm
  flags_zero := inv.flags_zero
  cause_iff := inv.cause_iff
  cause_legal := inv.cause_legal
  cause_true _ _ h := by cases no_cause.symm.trans h

/-- Settles O2: memory by `read_of_launch`, every other element is reset's. -/
theorem launchPlacesTheImage : Obligations.LaunchPlacesTheImage := by
  intro image fits
  have launched := launch_eq_some.2 ⟨fits, rfl⟩
  obtain ⟨regs_zero, flags_zero, pc_zero, -, running, no_cause, no_output, -⟩ := resetGivesEveryElementItsValue
  exact ⟨_, launched, regs_zero, flags_zero, pc_zero, read_of_launch launched, running, no_cause, no_output⟩

/-- Settles O49: reset meets the invariant, and the load changes memory only. -/
theorem launchMeetsInvariant : Obligations.LaunchMeetsInvariant := by
  intro image t h
  have hwf := mem_wf_of_launch h
  obtain ⟨-, rfl⟩ := launch_eq_some.1 h
  exact stateInv_with_mem resetMeetsInvariant rfl hwf

/-- Settles O3: the empty image launches in the reset state, where the byte 0x00 at address 0 is no opcode. -/
theorem overlongImageIsNotLoadable : Obligations.OverlongImageIsNotLoadable := by
  refine ⟨fun image => ?_, State.reset, rfl, read_of_launch (image := []) rfl, ?_⟩
  · simp [Option.isSome_iff_exists, launch_eq_some]
  · have fetching : Fetching State.reset 0 := ⟨rfl, by decide, rfl⟩
    exact illegalOpcodesFault _ _ fetching (.inl rfl)

end Sys2Proof.Machine
end
